-- ==== Sys2Proof/Word.lean ====
section
/-! DEFINITION. The words of the ports, raw values and Complex Samples. -/

namespace Sys2Proof

/-- A word on an operand or result signal. The signals are `W` bits wide, `W` one of 8, 16, 32, 64
(R9, R32); a `Word` carries the `W` bits in its low end. The bits above `W` are no wires: they are
ignored on an operand and 0 on a result. -/
abbrev Word := BitVec 64

/-- A raw value: the two's-complement reading of a `W`-bit word, an integer in `MIN .. MAX`
(R16, R30). -/
abbrev Raw := Int

/-- A Complex Sample: a pair of raw values (R160). One cell of the sample memory or of the twiddle
ROM. -/
structure Sample where
  re : Raw
  im : Raw
  deriving DecidableEq, Repr

/-- The pair `(0, 0)`. -/
abbrev Sample.zero : Sample := ⟨0, 0⟩

end Sys2Proof
end

