-- ==== Sys2Proof/Syntax.lean ====
section
/-! DEFINITION. The commands: one constructor per row of spec/opcode_table.json. -/

namespace Sys2Proof

/-- The policy select, bit `P` of the command word: 0 Saturate, 1 WrapAround (R10, R61). -/
inductive Policy where
  | saturate
  | wrapAround
  deriving DecidableEq, Repr

/-- A command word's content (R65): the command and its free fields. The operand words `opa`, `opb`
are not part of the encoding (R60): a meaning reads them from the command port. An `imm` is the
unsigned value of the 21-bit field `IMM` (R63). -/
inductive Instr where
  | add (p : Policy)
  | sub (p : Policy)
  | mul (p : Policy)
  | div (p : Policy)
  | cmpeq
  | cmpne
  | cmplt
  | cmple
  | cmpgt
  | cmpge
  | fromint
  | toint
  | fromraw
  | rdtw (imm : Nat)
  | wrx (imm : Nat)
  | rdx (imm : Nat)
  | bitrev (imm : Nat)
  | fftFwd (p : Policy) (imm : Nat)
  | fftInv (p : Policy) (imm : Nat)
  deriving DecidableEq, Repr

end Sys2Proof
end

