-- ==== Sys2Proof/WellFormed.lean ====
section
/-! DEFINITION. Which commands an encoding can carry. -/

namespace Sys2Proof

/-- The immediate, where the command has one (formats IX, TN, TP of R62). -/
def Instr.imm? : Instr → Option Nat
  | .rdtw k => some k
  | .wrx k => some k
  | .rdx k => some k
  | .bitrev k => some k
  | .fftFwd _ k => some k
  | .fftInv _ k => some k
  | .add _ => none
  | .sub _ => none
  | .mul _ => none
  | .div _ => none
  | .cmpeq => none
  | .cmpne => none
  | .cmplt => none
  | .cmple => none
  | .cmpgt => none
  | .cmpge => none
  | .fromint => none
  | .toint => none
  | .fromraw => none

/-- A command is well formed when its immediate fits the 21-bit field `IMM`: `0 .. 2097151` (R63).
No other field can hold a value the word cannot. -/
def Instr.wellFormed (i : Instr) : Bool :=
  match i.imm? with
  | some k => decide (k < 2 ^ 21)
  | none => true

end Sys2Proof
end

