-- ==== Sys2Proof/Decode.lean ====
section
/-! DEFINITION. The command word: its fields, the decoder, the opcode table and the encoder. -/

namespace Sys2Proof

/-! ### The fields of R61 -/

/-- `OPC`, bits 31..24. -/
def opcOf (w : BitVec 32) : Nat := (w.extractLsb' 24 8).toNat

/-- `P`, bit 23: 0 Saturate, 1 WrapAround. -/
def policyOf (w : BitVec 32) : Policy := if w.getLsbD 23 then .wrapAround else .saturate

/-- `RSV`, bits 22..21. -/
def rsvOf (w : BitVec 32) : Nat := (w.extractLsb' 21 2).toNat

/-- `IMM`, bits 20..0, unsigned (R63). -/
def immOf (w : BitVec 32) : Nat := (w.extractLsb' 0 21).toNat

/-! ### The decoder -/

/-- Why a word is no command (R67). Every one of these is answered `ILLEGAL_COMMAND` (R304). -/
inductive DecodeError where
  /-- `OPC` is one of the 237 unused values -/
  | unusedOpcode
  /-- `RSV` is not 00 -/
  | reservedBits
  /-- `P = 1` in a command of format AN, IX or TN -/
  | policyNotAllowed
  /-- `IMM` is not 0 in a command of format AP or AN -/
  | immediateNotAllowed
  deriving DecidableEq, Repr

/-- Format AP (R62): `P` free, `RSV` and `IMM` zero. -/
def decodeAP (mk : Policy → Instr) (w : BitVec 32) : Except DecodeError Instr :=
  if rsvOf w ≠ 0 then .error .reservedBits
  else if immOf w ≠ 0 then .error .immediateNotAllowed
  else .ok (mk (policyOf w))

/-- Format AN (R62): `P`, `RSV` and `IMM` zero. -/
def decodeAN (i : Instr) (w : BitVec 32) : Except DecodeError Instr :=
  if rsvOf w ≠ 0 then .error .reservedBits
  else if policyOf w ≠ .saturate then .error .policyNotAllowed
  else if immOf w ≠ 0 then .error .immediateNotAllowed
  else .ok i

/-- Formats IX and TN (R62): `P` and `RSV` zero, `IMM` free. -/
def decodeIX (mk : Nat → Instr) (w : BitVec 32) : Except DecodeError Instr :=
  if rsvOf w ≠ 0 then .error .reservedBits
  else if policyOf w ≠ .saturate then .error .policyNotAllowed
  else .ok (mk (immOf w))

/-- Format TP (R62): `P` and `IMM` free, `RSV` zero. -/
def decodeTP (mk : Policy → Nat → Instr) (w : BitVec 32) : Except DecodeError Instr :=
  if rsvOf w ≠ 0 then .error .reservedBits
  else .ok (mk (policyOf w) (immOf w))

/-- The decoder: the row of R65 that a command word selects, or why it selects none (R67). Total on
the `2^32` words. -/
def decode (w : BitVec 32) : Except DecodeError Instr :=
  match opcOf w with
  | 0x01 => decodeAP .add w
  | 0x02 => decodeAP .sub w
  | 0x03 => decodeAP .mul w
  | 0x04 => decodeAP .div w
  | 0x10 => decodeAN .cmpeq w
  | 0x11 => decodeAN .cmpne w
  | 0x12 => decodeAN .cmplt w
  | 0x13 => decodeAN .cmple w
  | 0x14 => decodeAN .cmpgt w
  | 0x15 => decodeAN .cmpge w
  | 0x20 => decodeAN .fromint w
  | 0x21 => decodeAN .toint w
  | 0x22 => decodeAN .fromraw w
  | 0x30 => decodeIX .rdtw w
  | 0x40 => decodeIX .wrx w
  | 0x41 => decodeIX .rdx w
  | 0x50 => decodeIX .bitrev w
  | 0x51 => decodeTP .fftFwd w
  | 0x52 => decodeTP .fftInv w
  | _ => .error .unusedOpcode

/-- The instruction the decoder reads from a word of the opcode table. The command word is one
32-bit number; it has no byte order (R41). -/
def decodeTableWord (nbits w : Nat) : Option Instr :=
  match decode (BitVec.ofNat 32 (w % 2 ^ nbits)) with
  | .ok i => some i
  | .error _ => none

/-! ### The encoder -/

/-- The value of bit `P`. -/
def Policy.bit : Policy → Nat
  | .saturate => 0
  | .wrapAround => 1

/-- A command word from its fields, `RSV = 00` (R61). -/
def packWord (opc p imm : Nat) : BitVec 32 := BitVec.ofNat 32 (opc * 2 ^ 24 + p * 2 ^ 23 + imm)

/-- The command word of a command (R65): the row's `match` with the free fields filled in. -/
def encode : Instr → BitVec 32
  | .add p => packWord 0x01 p.bit 0
  | .sub p => packWord 0x02 p.bit 0
  | .mul p => packWord 0x03 p.bit 0
  | .div p => packWord 0x04 p.bit 0
  | .cmpeq => packWord 0x10 0 0
  | .cmpne => packWord 0x11 0 0
  | .cmplt => packWord 0x12 0 0
  | .cmple => packWord 0x13 0 0
  | .cmpgt => packWord 0x14 0 0
  | .cmpge => packWord 0x15 0 0
  | .fromint => packWord 0x20 0 0
  | .toint => packWord 0x21 0 0
  | .fromraw => packWord 0x22 0 0
  | .rdtw k => packWord 0x30 0 k
  | .wrx k => packWord 0x40 0 k
  | .rdx k => packWord 0x41 0 k
  | .bitrev k => packWord 0x50 0 k
  | .fftFwd p k => packWord 0x51 p.bit k
  | .fftInv p k => packWord 0x52 p.bit k

/-! ### The opcode table, as masks and matches -/

/-- The mnemonic of R65. -/
def Instr.mnemonic : Instr → String
  | .add _ => "ADD"
  | .sub _ => "SUB"
  | .mul _ => "MUL"
  | .div _ => "DIV"
  | .cmpeq => "CMPEQ"
  | .cmpne => "CMPNE"
  | .cmplt => "CMPLT"
  | .cmple => "CMPLE"
  | .cmpgt => "CMPGT"
  | .cmpge => "CMPGE"
  | .fromint => "FROMINT"
  | .toint => "TOINT"
  | .fromraw => "FROMRAW"
  | .rdtw _ => "RDTW"
  | .wrx _ => "WRX"
  | .rdx _ => "RDX"
  | .bitrev _ => "BITREV"
  | .fftFwd _ _ => "FFT.FWD"
  | .fftInv _ _ => "FFT.INV"

/-- One row of R65 with the mask of its format (R62). -/
structure OpcodeRow where
  mnemonic : String
  mask : BitVec 32
  pattern : BitVec 32
  deriving DecidableEq, Repr

/-- The nineteen rows of R65. -/
def opcodeTable : List OpcodeRow :=
  [⟨"ADD", 0xFF7FFFFF, 0x01000000⟩, ⟨"SUB", 0xFF7FFFFF, 0x02000000⟩,
   ⟨"MUL", 0xFF7FFFFF, 0x03000000⟩, ⟨"DIV", 0xFF7FFFFF, 0x04000000⟩,
   ⟨"CMPEQ", 0xFFFFFFFF, 0x10000000⟩, ⟨"CMPNE", 0xFFFFFFFF, 0x11000000⟩,
   ⟨"CMPLT", 0xFFFFFFFF, 0x12000000⟩, ⟨"CMPLE", 0xFFFFFFFF, 0x13000000⟩,
   ⟨"CMPGT", 0xFFFFFFFF, 0x14000000⟩, ⟨"CMPGE", 0xFFFFFFFF, 0x15000000⟩]
  ++
  [⟨"FROMINT", 0xFFFFFFFF, 0x20000000⟩, ⟨"TOINT", 0xFFFFFFFF, 0x21000000⟩,
   ⟨"FROMRAW", 0xFFFFFFFF, 0x22000000⟩, ⟨"RDTW", 0xFFE00000, 0x30000000⟩,
   ⟨"WRX", 0xFFE00000, 0x40000000⟩, ⟨"RDX", 0xFFE00000, 0x41000000⟩,
   ⟨"BITREV", 0xFFE00000, 0x50000000⟩, ⟨"FFT.FWD", 0xFF600000, 0x51000000⟩,
   ⟨"FFT.INV", 0xFF600000, 0x52000000⟩]

/-- Whether a word selects a row: `w AND mask = match` (R62). -/
def OpcodeRow.selects (r : OpcodeRow) (w : BitVec 32) : Bool := decide (w &&& r.mask = r.pattern)

end Sys2Proof
end

