-- ==== Sys2Proof/Config.lean ====
section
/-! DEFINITION. The configuration record of an instance (R8). What is computed from it is in
Machine/Params.lean. -/

namespace Sys2Proof

/-- The parameter `INV_SCALE`: how `FFT.INV` scales by `1/N` (R8, R262). -/
inductive InvScale where
  | div
  | mulRecip
  deriving DecidableEq, Repr

/-- The configuration `Cfg` of R8. Nothing in it changes while the instance exists. -/
structure Cfg where
  /-- `TOTAL_BITS` -/
  totalBits : Nat
  /-- `FRAC_BITS`, written `F` -/
  fracBits : Nat
  /-- `N`, the transform length -/
  n : Nat
  /-- `INV_SCALE` -/
  invScale : InvScale
  /-- `TW`, the contents of the twiddle ROM: `N/2` entries (R26, R181). A table the configuration
  names (D25); the canonical contents are computed by `canonicalTw`. -/
  tw : List Sample
  deriving DecidableEq, Repr

/-- Free value: whether a raw value halfway between two floating-point numbers of the given precision
becomes the one larger in magnitude. The spec gives no tie rule for `to_float` and `to_double` (R153,
log 15). -/
opaque Config.floatTieUp : Nat → Int → Bool

end Sys2Proof
end

