-- ==== Sys2Proof/Machine/State.lean ====
section
/-! DEFINITION. The state of the machine: the sample memory, the command port with what the host will
drive on it, the response port, and the configuration of the instance. -/

namespace Sys2Proof.Machine

/-- The error classes of R300. `invalidConfiguration` is the result of a failed construction and is
never the error of a response (R303). -/
inductive ErrCode where
  | ok
  | divByZero
  | sizeMismatch
  | invalidConfiguration
  | illegalCommand
  | badIndex
  deriving DecidableEq, Repr

/-- The response to one command (R71): `rsp_err`, `rsp_res`, `rsp_res2`. -/
structure Response where
  err : ErrCode
  res : Word
  res2 : Word
  deriving DecidableEq, Repr

/-- What the host drives on the input signals in one slot: an edge at which the core is ready for a
command (R32, R33). -/
structure Port where
  /-- `rst`: 1 at this edge -/
  rst : Bool
  /-- `cmd_valid` -/
  cmdValid : Bool
  /-- `cmd_word` -/
  cmdWord : BitVec 32
  /-- `cmd_opa`; the low `W` bits are the signal -/
  cmdOpa : Word
  /-- `cmd_opb`; the low `W` bits are the signal -/
  cmdOpb : Word
  /-- `rst` rises after the command of this slot was accepted and before its response: the command is
  cut short (R31, R35). Without an accepted command it says nothing. -/
  rstBeforeRsp : Bool
  deriving DecidableEq, Repr

/-- The port when the host offers nothing. -/
def Port.idle : Port := ⟨false, false, 0, 0, 0, false⟩

/-- The sample memory `XMEM` (R24, R40): the cells that hold a value, as (index, sample) pairs, indexes
strictly rising. An index that is not listed holds no value (R25). -/
abbrev Memory := List (Nat × Sample)

/-- The state of the machine. -/
structure State where
  /-- the configuration of the instance; no step changes it (R8) -/
  cfg : Cfg
  /-- the sample memory `XMEM` -/
  xmem : Memory
  /-- the input signals in the slot the next step takes -/
  port : Port
  /-- what the host drives in the slots after that one, next first; then nothing (R35) -/
  inputs : List Port
  /-- the response given in the last slot, `none` when none was (`rsp_valid = 0`, R34) -/
  rsp : Option Response
  deriving DecidableEq, Repr

/-- Why a step stops. -/
inductive Fault where
  /-- A command read a cell of `XMEM` that holds no value: raised by `RDX`, `BITREV`, `FFT.FWD` and
  `FFT.INV` (R25, which asks for this fault of the model). Safe: the hardware goes on with an
  unspecified value. -/
  | unwrittenCell
  deriving DecidableEq, Repr

/-- Why a step gives no meaning. -/
inductive Refusal where
  /-- An instruction without a meaning, by its mnemonic. Raised by arms of `exec` only; no arm raises
  it now. Safe. -/
  | notModelled (mnemonic : String)
  deriving DecidableEq, Repr

/-- The instance of `State.reset`: (16,8), `N = 8`, `INV_SCALE = DIV`, with the canonical twiddles of
R186. DESIGN CHOICE (log 2): the spec names no instance. -/
def referenceCfg : Cfg where
  totalBits := 16
  fracBits := 8
  n := 8
  invScale := .div
  tw := [⟨256, 0⟩, ⟨181, -181⟩, ⟨0, -256⟩, ⟨-181, -181⟩]

/-- An instance right after reset (R31, R340): no cell of `XMEM` holds a value and no response is
pending. The input signals are the host's; here it drives nothing (DESIGN CHOICE, log 3). -/
def State.afterReset (c : Cfg) : State where
  cfg := c
  xmem := []
  port := Port.idle
  inputs := []
  rsp := none

/-- The machine right after reset. -/
def State.reset : State := State.afterReset referenceCfg

end Sys2Proof.Machine
end

