-- ==== Sys2Proof/Machine/Params.lean ====
section
/-! DEFINITION. Integer notation, the derived constants of a configuration, construction, and the
host-side functions `Q` and `val`. -/

namespace Sys2Proof

/-! ### Integer notation (R16) -/

/-- `trunc_n(v)`: the low `n` bits of `v`, read as two's complement (R16). -/
def trunc (n : Nat) (v : Int) : Int :=
  let r := v % ((2 ^ n : Nat) : Int)
  if r < ((2 ^ (n - 1) : Nat) : Int) then r else r - ((2 ^ n : Nat) : Int)

/-- `v >>a k`: `floor(v / 2^k)` for every sign of `v` (R16). -/
def asr (v : Int) (k : Nat) : Int := v / ((2 ^ k : Nat) : Int)

/-- `v << k`: `v * 2^k` (R16). -/
def shl (v : Int) (k : Nat) : Int := v * ((2 ^ k : Nat) : Int)

/-- `tdiv(a, b)`: integer division truncating toward zero, `b ≠ 0` (R16). -/
def tdiv (a b : Int) : Int := a.sign * b.sign * ((a.natAbs / b.natAbs : Nat) : Int)

/-- `rha(a / b)`, `b > 0`: the nearest integer, halves away from zero: `sign(x) * floor(|x| + 1/2)`
(R16). -/
def rhaDiv (a : Int) (b : Nat) : Int := a.sign * (((2 * a.natAbs + b) / (2 * b) : Nat) : Int)

/-! ### Derived constants (R9) -/

/-- The storage width `W`: the smallest of 8, 16, 32, 64 that is at least `TOTAL_BITS` (R9). -/
def storageWidth (totalBits : Nat) : Nat :=
  if totalBits ≤ 8 then 8
  else if totalBits ≤ 16 then 16
  else if totalBits ≤ 32 then 32
  else 64

/-- The promotion table: 8 to 16, 16 to 32, 32 to 64, 64 to 128 (R101). -/
def promote (w : Nat) : Nat := 2 * w

/-- `W` -/
def Cfg.w (c : Cfg) : Nat := storageWidth c.totalBits

/-- `WW = promote(W)` -/
def Cfg.ww (c : Cfg) : Nat := promote c.w

/-- `MIN = -2^(W-1)` (R9, R103) -/
def Cfg.min (c : Cfg) : Int := -((2 ^ (c.w - 1) : Nat) : Int)

/-- `MAX = 2^(W-1) - 1` (R9, R103) -/
def Cfg.max (c : Cfg) : Int := ((2 ^ (c.w - 1) : Nat) : Int) - 1

/-- `levels = log2(N)` -/
def Cfg.levels (c : Cfg) : Nat := Nat.log2 c.n

/-- `ONE = 2^F` -/
def Cfg.one (c : Cfg) : Int := ((2 ^ c.fracBits : Nat) : Int)

/-- `from_int(i) = trunc_W(i << F)` (R140). -/
def Cfg.fromInt (c : Cfg) (i : Int) : Int := trunc c.w (shl i c.fracBits)

/-- `NFX = from_int(N)` (R28, R140). -/
def Cfg.nfx (c : Cfg) : Int := c.fromInt (c.n : Int)

/-- `RECIP = Q(1/N) = rha(2^F / N)` (R28, R262). -/
def Cfg.recip (c : Cfg) : Int := rhaDiv c.one c.n

/-- A raw value of the configuration: an integer in `MIN .. MAX` (R30). -/
def Cfg.inRange (c : Cfg) (v : Int) : Bool := decide (c.min ≤ v) && decide (v ≤ c.max)

/-- A Complex Sample of the configuration: every pair of raw values is valid (R160). -/
def Cfg.sampleOk (c : Cfg) (x : Sample) : Bool := c.inRange x.re && c.inRange x.im

/-- Bits of `i` reversed across `levels` positions: bit `b` of the result is bit `levels-1-b` of `i`
(R220). -/
def brev : Nat → Nat → Nat
  | 0, _ => 0
  | levels + 1, i => (i % 2) * 2 ^ levels + brev levels (i / 2)

/-- The entry `BR[i]` of the bit-reversal table (R220). -/
def Cfg.brAt (c : Cfg) (i : Nat) : Nat := brev c.levels i

/-- The bit-reversal table `BR[0 .. N-1]` (R27, R220). -/
def Cfg.br (c : Cfg) : List Nat := (List.range c.n).map c.brAt

/-! ### Construction (R11 to R13, R303, R343) -/

/-- `N` is zero or not a power of two: rejected (R12). -/
def isPowerOfTwo (n : Nat) : Bool := decide (n = 2 ^ Nat.log2 n)

/-- The construction checks: R11 on the widths, R12 on `N`, R13 (a), (b), (c). -/
def Cfg.valid (c : Cfg) : Bool :=
  decide (1 ≤ c.totalBits ∧ c.totalBits ≤ 64 ∧ c.fracBits < c.totalBits) &&
  isPowerOfTwo c.n &&
  decide (2 ≤ c.n → c.fracBits ≤ c.w - 2) &&
  decide (c.n ≤ 2 ^ 20) &&
  decide (c.invScale = .mulRecip → c.fracBits ≤ c.w - 2)

/-- The form of the twiddle ROM: `N/2` entries, each a Complex Sample (R26). -/
def Cfg.twOk (c : Cfg) : Bool := decide (c.tw.length = c.n / 2) && c.tw.all c.sampleOk

/-- A configuration of an instance: it passes construction and its twiddle ROM has the ROM's form. -/
def Cfg.isInstance (c : Cfg) : Bool := c.valid && c.twOk

/-- Construction of an instance from a configuration record: the instance right after its first
reset, or *Invalid configuration* (R12, R303). -/
def Machine.construct (c : Cfg) : Except Machine.ErrCode Machine.State :=
  if c.isInstance then .ok (Machine.State.afterReset c) else .error .invalidConfiguration

/-! ### Quantisation and value (R150 to R155): functions of the host, no command -/

/-- `rha(x)`: the nearest integer, halves away from zero (R16). -/
def rha (x : ℚ) : Int := rhaDiv x.num x.den

/-- `Q(x) = rha(x * 2^F)`; not defined where that is outside `MIN .. MAX` (R150, R151). A floating
point input is an exact rational. -/
def Cfg.quantise (c : Cfg) (x : ℚ) : Option Int :=
  let r := rha (x * (2 ^ c.fracBits : Nat))
  if c.inRange r then some r else none

/-- `val(r) = r / 2^F`, exact (R153). -/
def Cfg.val (c : Cfg) (r : Int) : ℚ := (r : ℚ) / (2 ^ c.fracBits : Nat)

/-- The nearest integer to `r` with at most `p` significant bits (R153). Of two equally near ones the free
value `Config.floatTieUp` chooses (log 15). -/
def nearestInt (p : Nat) (r : Int) : Int :=
  let drop := Nat.log2 r.natAbs + 1 - p
  let q := r.natAbs / 2 ^ drop
  let rest := 2 * (r.natAbs % 2 ^ drop)
  let up := decide (2 ^ drop < rest) || (decide (2 ^ drop = rest) && Config.floatTieUp p r)
  r.sign * (((if up then q + 1 else q) * 2 ^ drop : Nat) : Int)

/-- `to_float(r)`: the single-precision number nearest `val(r)` (R153), 24 significant bits (log 15). -/
def Cfg.toFloat (c : Cfg) (r : Int) : ℚ := c.val (nearestInt 24 r)

/-- `to_double(r)`: the double-precision number nearest `val(r)` (R153), 53 significant bits (log 15). -/
def Cfg.toDouble (c : Cfg) (r : Int) : ℚ := c.val (nearestInt 53 r)

end Sys2Proof
end

