-- ==== Sys2Proof/Machine/Flags.lean ====
section
/-! DEFINITION. Overflow and truth values. The core has no flags (R22): an overflow is resolved by the
policy and recorded nowhere (R107), and a comparison answers in the result word (R130). -/

namespace Sys2Proof

/-- `w > MAX` or `w < MIN` (R103). -/
def Cfg.overflows (c : Cfg) (w : Int) : Bool := decide (c.max < w) || decide (w < c.min)

/-- The policy function, the policy multiplexer (R104): Saturate gives the bound on the side of the
overflow (R105), WrapAround the opposite bound (R106). -/
def narrow (c : Cfg) (p : Policy) (w : Int) : Int :=
  if c.max < w then
    match p with
    | .saturate => c.max
    | .wrapAround => c.min
  else if w < c.min then
    match p with
    | .saturate => c.min
    | .wrapAround => c.max
  else w

/-- The result of a comparison: 1 for true, 0 for false (R130). -/
def truth (b : Bool) : Int := if b then 1 else 0

end Sys2Proof
end

