-- ==== Sys2Proof/Machine/Operands.lean ====
section
/-! DEFINITION. The operand forms: the two operand words, the index and the length, and the words of a
result. -/

namespace Sys2Proof.Machine

/-- `sint_W(b)`: the low `W` bits of a word, read as two's complement (R16, R64). -/
def sintW (w : Nat) (b : Word) : Int := trunc w (b.toNat : Int)

/-- The word a result is driven as: the `W`-bit word with `sint_W = r` (R64). -/
def toWord (w : Nat) (r : Int) : Word := BitVec.ofNat 64 (r % ((2 ^ w : Nat) : Int)).toNat

/-- `a = sint_W(opa)` (R64). -/
def State.opA (s : State) : Int := sintW s.cfg.w s.port.cmdOpa

/-- `b = sint_W(opb)` (R64). -/
def State.opB (s : State) : Int := sintW s.cfg.w s.port.cmdOpb

/-- An index of `XMEM`: used as is, in range below `N` (R42, R45). -/
def State.indexOk (s : State) (imm : Nat) : Bool := decide (imm < s.cfg.n)

/-- An index of `TW`: in range below `N/2` (R42, R45). -/
def State.twIndexOk (s : State) (imm : Nat) : Bool := decide (imm < s.cfg.n / 2)

/-- The length a transform command carries equals `N` (R252). -/
def State.lengthOk (s : State) (imm : Nat) : Bool := decide (imm = s.cfg.n)

end Sys2Proof.Machine
end

