-- ==== Sys2Proof/Machine/Ops.lean ====
section
/-! DEFINITION. The shared operations: the sample memory, the response, error delivery, reset and the
command port. -/

namespace Sys2Proof.Machine

/-- What one step answers. -/
abbrev Step := Host.Outcome State Fault Refusal

/-! ### The sample memory -/

/-- `MemRead(i, 1)` (R17): the pair in cell `i`, or no value (R25). -/
def Memory.read : Memory → Nat → Option Sample
  | [], _ => none
  | (k, x) :: m, i => if k = i then some x else Memory.read m i

/-- `MemWrite(i, 1, x)` (R17): both components at once (R43). Keeps the indexes strictly rising. -/
def Memory.write : Memory → Nat → Sample → Memory
  | [], i, x => [(i, x)]
  | (k, y) :: m, i, x =>
    if i < k then (i, x) :: (k, y) :: m
    else if i = k then (i, x) :: m
    else (k, y) :: Memory.write m i x

/-- The cells `i .. i+count-1`, if every one of them holds a value. -/
def Memory.readFrom (m : Memory) : Nat → Nat → Option (List Sample)
  | _, 0 => some []
  | i, count + 1 =>
    match Memory.read m i, Memory.readFrom m (i + 1) count with
    | some x, some xs => some (x :: xs)
    | _, _ => none

/-- All `N` cells in index order, if every one of them holds a value (R25). -/
def Memory.readAll (m : Memory) (n : Nat) : Option (List Sample) := Memory.readFrom m 0 n

/-- The memory whose cells `i, i+1, ..` hold the given samples. -/
def Memory.cellsFrom : Nat → List Sample → Memory
  | _, [] => []
  | i, x :: xs => (i, x) :: Memory.cellsFrom (i + 1) xs

/-- The memory whose cells `0, 1, ..` hold the given samples. -/
def Memory.ofCells (xs : List Sample) : Memory := Memory.cellsFrom 0 xs

/-- Indexes strictly rising, the first one at least `lo`. -/
def Memory.risingFrom : Nat → Memory → Bool
  | _, [] => true
  | lo, (k, _) :: m => decide (lo ≤ k) && Memory.risingFrom (k + 1) m

/-- The canonical form: indexes strictly rising. No listed cell equals what an unlisted one reads as,
since a listed cell holds a value. -/
def Memory.wf (m : Memory) : Bool := Memory.risingFrom 0 m

/-- Every cell listed is one of the `N` cells and holds a pair of raw values (R24, R40). -/
def Memory.fits (c : Cfg) (m : Memory) : Bool :=
  m.all fun e => decide (e.1 < c.n) && c.sampleOk e.2

/-! ### Responses and errors -/

/-- The 3-bit code driven on `rsp_err` (R300). -/
def ErrCode.code : ErrCode → BitVec 3
  | .ok => 0
  | .divByZero => 1
  | .sizeMismatch => 2
  | .invalidConfiguration => 3
  | .illegalCommand => 4
  | .badIndex => 5

/-- `respond(res, res2)`: the command ends with error code `OK` and the two result words; a missing
argument is 0 (R17, R71). -/
def State.respond (s : State) (res res2 : Int) : State :=
  { s with rsp := some ⟨.ok, toWord s.cfg.w res, toWord s.cfg.w res2⟩ }

/-- `raise E`: error delivery, in place of trap entry (R17, R306). The command's one response carries
the code and `res = res2 = 0`; nothing is saved, nothing is vectored and no state changes. There is
nothing to return from (R307). -/
def State.raise (s : State) (e : ErrCode) : State := { s with rsp := some ⟨e, 0, 0⟩ }

/-- The sample memory replaced, whole. -/
def State.withXmem (s : State) (m : Memory) : State := { s with xmem := m }

/-- A transform command past its checks: it reads all `N` cells, which must hold values (R25), and
leaves its result in the same cells (R47), as one atomic step (R251). -/
def State.transform (s : State) (f : List Sample → List Sample) : Step :=
  match Memory.readAll s.xmem s.cfg.n with
  | none => .fault .unwrittenCell
  | some xs => .next ((s.withXmem (Memory.ofCells (f xs))).respond 0 0)

/-! ### Reset and the command port -/

/-- `rst = 1` at an edge (R31, R340): every cell of `XMEM` loses its value, a command in progress is
abandoned without response, no error is pending; the constants of the instance stay. -/
def State.applyReset (s : State) : State := { s with xmem := [], rsp := none }

/-- A slot in which no command is accepted: an idle core does nothing (R318). -/
def State.idleSlot (s : State) : State := { s with rsp := none }

/-- The next slot's input signals come to the port; after the last the host drives nothing. -/
def State.advance (s : State) : State :=
  match s.inputs with
  | [] => { s with port := Port.idle }
  | d :: ds => { s with port := d, inputs := ds }

end Sys2Proof.Machine
end

