-- ==== Sys2Proof/Machine/Fxalu.lean ====
section
/-! DEFINITION. The unit FXALU: the thirteen ALU commands (R110 to R142). -/

namespace Sys2Proof

/-! ### The functions of the unit -/

/-- `alu_add(p, a, b) = narrow(p, a + b)` (R110). -/
def aluAdd (c : Cfg) (p : Policy) (a b : Int) : Int := narrow c p (a + b)

/-- `alu_sub(p, a, b) = narrow(p, a - b)` (R111). -/
def aluSub (c : Cfg) (p : Policy) (a b : Int) : Int := narrow c p (a - b)

/-- `alu_mul(p, a, b) = narrow(p, (a * b) >>a F)` (R112). -/
def aluMul (c : Cfg) (p : Policy) (a b : Int) : Int := narrow c p (asr (a * b) c.fracBits)

/-- `narrow(p, tdiv(a << F, b))`, the quotient of R113 for a divisor that is not 0. -/
def aluQuot (c : Cfg) (p : Policy) (a b : Int) : Int := narrow c p (tdiv (shl a c.fracBits) b)

/-- `alu_div(p, a, b)`: a zero divisor is an error before anything else (R113, R301). -/
def aluDiv (c : Cfg) (p : Policy) (a b : Int) : Except Machine.ErrCode Int :=
  if b = 0 then .error .divByZero else .ok (aluQuot c p a b)

/-- `to_int(a) = a >>a F` (R141). -/
def Cfg.toInt (c : Cfg) (a : Int) : Int := asr a c.fracBits

/-- The thirteen ALU operations of R37. -/
inductive AluOp where
  | add | sub | mul | div
  | eq | ne | lt | le | gt | ge
  | fromInt | toInt | fromRaw
  deriving DecidableEq, Repr

/-- The unit as one function `alu(op, p, a, b) -> (y, dz)`, `dz` true only for a division by zero
(R37). DESIGN CHOICE (log 16): where `dz` is true the spec gives no `y`, and here it is 0. No command reads
it: `DIV` answers by `raise` (R113). -/
def alu (c : Cfg) (op : AluOp) (p : Policy) (a b : Int) : Int × Bool :=
  match op with
  | .add => (aluAdd c p a b, false)
  | .sub => (aluSub c p a b, false)
  | .mul => (aluMul c p a b, false)
  | .div =>
    match aluDiv c p a b with
    | .ok y => (y, false)
    | .error _ => (0, true)
  | .eq => (truth (decide (a = b)), false)
  | .ne => (truth (decide (a ≠ b)), false)
  | .lt => (truth (decide (a < b)), false)
  | .le => (truth (decide (a ≤ b)), false)
  | .gt => (truth (decide (b < a)), false)
  | .ge => (truth (decide (b ≤ a)), false)
  | .fromInt => (c.fromInt a, false)
  | .toInt => (c.toInt a, false)
  | .fromRaw => (a, false)

end Sys2Proof

namespace Sys2Proof.Machine

/-! ### The commands -/

/-- `ADD` (R110). -/
def execAdd (p : Policy) (s : State) : Step :=
  .next (s.respond (aluAdd s.cfg p s.opA s.opB) 0)

/-- `SUB` (R111). -/
def execSub (p : Policy) (s : State) : Step :=
  .next (s.respond (aluSub s.cfg p s.opA s.opB) 0)

/-- `MUL` (R112). -/
def execMul (p : Policy) (s : State) : Step :=
  .next (s.respond (aluMul s.cfg p s.opA s.opB) 0)

/-- `DIV` (R113). -/
def execDiv (p : Policy) (s : State) : Step :=
  match aluDiv s.cfg p s.opA s.opB with
  | .error e => .next (s.raise e)
  | .ok y => .next (s.respond y 0)

/-- `CMPEQ` (R131). -/
def execCmpeq (s : State) : Step := .next (s.respond (truth (decide (s.opA = s.opB))) 0)

/-- `CMPNE` (R132). -/
def execCmpne (s : State) : Step := .next (s.respond (truth (decide (s.opA ≠ s.opB))) 0)

/-- `CMPLT`, signed (R133). -/
def execCmplt (s : State) : Step := .next (s.respond (truth (decide (s.opA < s.opB))) 0)

/-- `CMPLE`, signed (R134). -/
def execCmple (s : State) : Step := .next (s.respond (truth (decide (s.opA ≤ s.opB))) 0)

/-- `CMPGT`, signed (R135). -/
def execCmpgt (s : State) : Step := .next (s.respond (truth (decide (s.opB < s.opA))) 0)

/-- `CMPGE`, signed (R136). -/
def execCmpge (s : State) : Step := .next (s.respond (truth (decide (s.opB ≤ s.opA))) 0)

/-- `FROMINT`: the policy is not applied (R140). -/
def execFromint (s : State) : Step := .next (s.respond (s.cfg.fromInt s.opA) 0)

/-- `TOINT` (R141). -/
def execToint (s : State) : Step := .next (s.respond (s.cfg.toInt s.opA) 0)

/-- `FROMRAW` (R142). -/
def execFromraw (s : State) : Step := .next (s.respond s.opA 0)

end Sys2Proof.Machine
end

