-- ==== Sys2Proof/Machine/Complex.lean ====
section
/-! DEFINITION. Complex Sample operations and the sample-memory commands (R160 to R167). -/

namespace Sys2Proof

/-- `cadd`: component-wise, each through the policy (R161). -/
def cadd (c : Cfg) (p : Policy) (x y : Sample) : Sample :=
  ⟨aluAdd c p x.re y.re, aluAdd c p x.im y.im⟩

/-- `csub`: component-wise, each through the policy (R161). -/
def csub (c : Cfg) (p : Policy) (x y : Sample) : Sample :=
  ⟨aluSub c p x.re y.re, aluSub c p x.im y.im⟩

/-- `cmul`: four products, a difference and a sum, each narrowed on its own (R162). -/
def cmul (c : Cfg) (p : Policy) (x w : Sample) : Sample :=
  let ac := aluMul c p x.re w.re
  let bd := aluMul c p x.im w.im
  let ad := aluMul c p x.re w.im
  let bc := aluMul c p x.im w.re
  ⟨aluSub c p ac bd, aluAdd c p ad bc⟩

/-- `conj`: the imaginary part negated through the policy (R163). -/
def conj (c : Cfg) (p : Policy) (x : Sample) : Sample := ⟨x.re, aluSub c p 0 x.im⟩

end Sys2Proof

namespace Sys2Proof.Machine

/-- `WRX` (R165). -/
def execWrx (imm : Nat) (s : State) : Step :=
  if s.indexOk imm then
    .next ((s.withXmem (Memory.write s.xmem imm ⟨s.opA, s.opB⟩)).respond 0 0)
  else .next (s.raise .badIndex)

/-- `RDX` (R166); a cell without value is a fault of the model (R25). -/
def execRdx (imm : Nat) (s : State) : Step :=
  if s.indexOk imm then
    match Memory.read s.xmem imm with
    | some x => .next (s.respond x.re x.im)
    | none => .fault .unwrittenCell
  else .next (s.raise .badIndex)

end Sys2Proof.Machine
end

