-- ==== Sys2Proof/Machine/Twrom.lean ====
section
/-! DEFINITION. The unit TWROM: the Twiddle Generator (R180) in exact integer arithmetic, the canonical
ROM contents (R181, R182), and `RDTW` (R185). -/

namespace Sys2Proof

/-! ### Cosines of `π j / m` against a rational

With `q = a/b = cos φ` strictly between -1 and 1, `S_k = b^(k-1) sin(k φ) / sin φ` obeys
`S_0 = 0`, `S_1 = 1`, `S_(k+1) = 2 a S_k - b² S_(k-1)`. The number of multiples of `π` in
`(0, m φ]` is the number of sign changes along `S_1 .. S_m`, and `cos(π j / m) ≥ q` exactly when
`j` is at most that number. -/

/-- `floor(k φ / π)` after `steps` more values of `k`, from `S_(k-1)`, `S_k` and `floor(k φ / π)`. -/
def halfTurns (a b : Int) : Nat → Int → Int → Nat → Nat
  | 0, _, _, j => j
  | steps + 1, prev, cur, j =>
    let next := 2 * a * cur - b * b * prev
    let signed := if j % 2 = 0 then next else -next
    halfTurns a b steps cur next (if 0 < signed then j else j + 1)

/-- Whether `cos(π j / m) ≥ a / b`, for `-b < a < b`, `0 ≤ j ≤ m`, `1 ≤ m`. -/
def cosGe (m j : Nat) (a b : Int) : Bool := decide (j ≤ halfTurns a b (m - 1) 0 1 0)

/-- The largest `r` reached from `r` by adding powers `2^(bits-1) .. 1` while `r ≤ 2^F` and
`cos(π j / m) ≥ (2 r - 1) / 2^(F+1)`. -/
def cosSearch (f m j : Nat) : Nat → Nat → Nat
  | 0, r => r
  | bits + 1, r =>
    let r' := r + 2 ^ bits
    if r' ≤ 2 ^ f && cosGe m j (2 * (r' : Int) - 1) ((2 ^ (f + 1) : Nat) : Int) then
      cosSearch f m j bits r'
    else cosSearch f m j bits r

/-- `rha(2^F cos(π j / m))` for `0 ≤ j ≤ m`, `1 ≤ m`. -/
def rhaCos (f m j : Nat) : Int :=
  if 2 * j ≤ m then (cosSearch f m j (f + 1) 0 : Int)
  else -(cosSearch f m (m - j) (f + 1) 0 : Int)

/-- `rha(2^F cos(2π j / (4 n)))` for `0 ≤ j < 4 n`, `1 ≤ n`. -/
def rhaCosTurn (f n j : Nat) : Int := rhaCos f (2 * n) (if j ≤ 2 * n then j else 4 * n - j)

/-! ### The generator and the ROM -/

/-- `make_twiddle(N, m, inverse)` (R180): the pair of `Q(cos)` and `Q(sin)` of the angle
`∓2π (m mod N) / N`, taken as exact reals (R182). `none` where a component has no raw value (R151). -/
def makeTwiddle (c : Cfg) (n m : Nat) (inverse : Bool) : Option Sample :=
  let k := m % n
  let re := rhaCosTurn c.fracBits n (4 * k)
  let sin := rhaCosTurn c.fracBits n ((4 * k + 3 * n) % (4 * n))
  let im := if inverse then sin else -sin
  if c.sampleOk ⟨re, im⟩ then some ⟨re, im⟩ else none

/-- The canonical ROM contents `TW[0 .. N/2-1]` of a configuration (R181, R182), if every entry has a
raw value. -/
def Cfg.canonicalTw (c : Cfg) : Option (List Sample) :=
  (List.range (c.n / 2)).mapM fun k => makeTwiddle c c.n k false

/-- Elaboration (R343): the checks of R11 to R13, and the tables computed. The table in the record is
replaced by the canonical contents. -/
def Machine.elaborate (c : Cfg) : Except Machine.ErrCode Machine.State :=
  if c.valid then
    match c.canonicalTw with
    | some tw => Machine.construct { c with tw := tw }
    | none => .error .invalidConfiguration
  else .error .invalidConfiguration

/-- The entry `TW[k]` of the ROM. An index outside the table is reached in no instance (R42); the pair
it then gives is the model's (log 12). -/
def Cfg.twAt (c : Cfg) (k : Nat) : Sample := c.tw.getD k Sample.zero

end Sys2Proof

namespace Sys2Proof.Machine

/-- `RDTW` (R185). -/
def execRdtw (imm : Nat) (s : State) : Step :=
  if s.twIndexOk imm then
    .next (s.respond (s.cfg.twAt imm).re (s.cfg.twAt imm).im)
  else .next (s.raise .badIndex)

end Sys2Proof.Machine
end

