-- ==== Sys2Proof/Machine/Brev.lean ====
section
/-! DEFINITION. The unit BREV: the in-place permutation (R222) and `BITREV` (R223). -/

namespace Sys2Proof

/-- Swap whole cells `i` and `j`: `t <- X[i]; X[i] <- X[j]; X[j] <- t` (R222). -/
def swapCells {α : Type} (z : α) (xs : List α) (i j : Nat) : List α :=
  (xs.set i (xs.getD j z)).set j (xs.getD i z)

/-- One index of the permutation: swap `X[i]` and `X[BR[i]]` if `i < BR[i]` (R222). -/
def permStep {α : Type} (z : α) (levels : Nat) (xs : List α) (i : Nat) : List α :=
  if i < brev levels i then swapCells z xs i (brev levels i) else xs

/-- The loop of `perm` over `i = 0 .. n-1`, ascending (R222). -/
def permCells {α : Type} (z : α) (levels n : Nat) (xs : List α) : List α :=
  (List.range n).foldl (permStep z levels) xs

/-- `perm(X)` (R222). -/
def perm (c : Cfg) (xs : List Sample) : List Sample := permCells Sample.zero c.levels c.n xs

/-- The pairs `perm` swaps, in order (R224). -/
def Cfg.swapPairs (c : Cfg) : List (Nat × Nat) :=
  ((List.range c.n).filter fun i => decide (i < c.brAt i)).map fun i => (i, c.brAt i)

end Sys2Proof

namespace Sys2Proof.Machine

/-- `BITREV` (R223). -/
def execBitrev (imm : Nat) (s : State) : Step :=
  if s.lengthOk imm then s.transform (perm s.cfg) else .next (s.raise .sizeMismatch)

end Sys2Proof.Machine
end

