-- ==== Sys2Proof/Machine/Bfly.lean ====
section
/-! DEFINITION. The unit BFLY: the radix-2 decimation-in-time butterfly (R235 to R237). -/

namespace Sys2Proof

/-- `bfly(p, u, x, w) = (s, d)` with `v = x * w`, `s = u + v`, `d = u - v` (R236). Both outputs use
the same `v` and the original `u`. -/
def bfly (c : Cfg) (p : Policy) (u x w : Sample) : Sample × Sample :=
  let v := cmul c p x w
  (cadd c p u v, csub c p u v)

end Sys2Proof
end

