-- ==== Sys2Proof/Machine/Fftcore.lean ====
section
/-! DEFINITION. The unit FFTCORE: the loop nest of `forward` (R255), `inverse` (R260), `scale` (R262),
and the commands `FFT.FWD` (R253) and `FFT.INV` (R261).

The loop nest is written once over any cell type, any table and any butterfly; the core's is the one
over Complex Samples. -/

namespace Sys2Proof

/-! ### The loop nest -/

/-- The body of the loop nest of R255 for block start `i` and offset `j`: read both cells, then write
both. -/
def butterflyAt {α : Type} (z : α) (tw : Nat → α) (bf : α → α → α → α × α) (half stride i : Nat)
    (xs : List α) (j : Nat) : List α :=
  let sd := bf (xs.getD (i + j) z) (xs.getD (i + j + half) z) (tw (j * stride))
  (xs.set (i + j) sd.1).set (i + j + half) sd.2

/-- `for j in 0 .. half-1` (R255). -/
def blockPass {α : Type} (z : α) (tw : Nat → α) (bf : α → α → α → α × α) (half stride : Nat)
    (xs : List α) (i : Nat) : List α :=
  (List.range half).foldl (butterflyAt z tw bf half stride i) xs

/-- One stage, `len = 2 * half`: `for i in 0, len, .., N - len` (R255). -/
def stagePass {α : Type} (z : α) (tw : Nat → α) (bf : α → α → α → α × α) (n half : Nat)
    (xs : List α) : List α :=
  (List.range (n / (2 * half))).foldl
    (fun ys q => blockPass z tw bf half (n / (2 * half)) ys (q * (2 * half))) xs

/-- `forward`: the permutation, then the stages `len = 2, 4, .., N` (R255). -/
def forwardCells {α : Type} (z : α) (tw : Nat → α) (bf : α → α → α → α × α) (levels n : Nat)
    (xs : List α) : List α :=
  (List.range levels).foldl (fun ys t => stagePass z tw bf n (2 ^ t) ys) (permCells z levels n xs)

/-! ### The transforms of the core -/

/-- `forward(p, X)` (R255). -/
def forward (c : Cfg) (p : Policy) (xs : List Sample) : List Sample :=
  forwardCells Sample.zero c.twAt (bfly c p) c.levels c.n xs

/-- One component of `scale`: divided by `NFX` or multiplied by `RECIP` (R262). `FFT.INV` runs it with
`NFX ≠ 0` only (R263). -/
def scaleRaw (c : Cfg) (p : Policy) (v : Int) : Int :=
  match c.invScale with
  | .div => aluQuot c p v c.nfx
  | .mulRecip => aluMul c p v c.recip

/-- `scale(p, (re, im))` (R262). -/
def scale (c : Cfg) (p : Policy) (x : Sample) : Sample := ⟨scaleRaw c p x.re, scaleRaw c p x.im⟩

/-- `inverse(p, X)`: conjugate, forward, conjugate, scale (R260). -/
def inverse (c : Cfg) (p : Policy) (xs : List Sample) : List Sample :=
  (((forward c p (xs.map (conj c p))).map (conj c p)).map (scale c p))

/-- Whether `FFT.INV` would divide by zero: `INV_SCALE = DIV` and `NFX = 0` (R263). -/
def Cfg.inverseDividesByZero (c : Cfg) : Bool :=
  match c.invScale with
  | .div => decide (c.nfx = 0)
  | .mulRecip => false

end Sys2Proof

namespace Sys2Proof.Machine

/-- `FFT.FWD` (R253). -/
def execFftFwd (p : Policy) (imm : Nat) (s : State) : Step :=
  if s.lengthOk imm then s.transform (forward s.cfg p) else .next (s.raise .sizeMismatch)

/-- `FFT.INV` (R261): the length first, then the divisor, then the transform (R309). -/
def execFftInv (p : Policy) (imm : Nat) (s : State) : Step :=
  if s.lengthOk imm then
    if s.cfg.inverseDividesByZero then .next (s.raise .divByZero)
    else s.transform (inverse s.cfg p)
  else .next (s.raise .sizeMismatch)

end Sys2Proof.Machine
end

