-- ==== Sys2Proof/Machine/Dispatch.lean ====
section
/-! DEFINITION. One arm per command. -/

namespace Sys2Proof.Machine

/-- The meaning of a decoded command (R70), its operand words on the command port. -/
def exec (i : Instr) (s : State) : Host.Outcome State Fault Refusal :=
  match i with
  | .add p => Sys2Proof.Machine.execAdd p s
  | .sub p => Sys2Proof.Machine.execSub p s
  | .mul p => Sys2Proof.Machine.execMul p s
  | .div p => Sys2Proof.Machine.execDiv p s
  | .cmpeq => Sys2Proof.Machine.execCmpeq s
  | .cmpne => Sys2Proof.Machine.execCmpne s
  | .cmplt => Sys2Proof.Machine.execCmplt s
  | .cmple => Sys2Proof.Machine.execCmple s
  | .cmpgt => Sys2Proof.Machine.execCmpgt s
  | .cmpge => Sys2Proof.Machine.execCmpge s
  | .fromint => Sys2Proof.Machine.execFromint s
  | .toint => Sys2Proof.Machine.execToint s
  | .fromraw => Sys2Proof.Machine.execFromraw s
  | .rdtw imm => Sys2Proof.Machine.execRdtw imm s
  | .wrx imm => Sys2Proof.Machine.execWrx imm s
  | .rdx imm => Sys2Proof.Machine.execRdx imm s
  | .bitrev imm => Sys2Proof.Machine.execBitrev imm s
  | .fftFwd p imm => Sys2Proof.Machine.execFftFwd p imm s
  | .fftInv p imm => Sys2Proof.Machine.execFftInv p imm s

end Sys2Proof.Machine
end

