-- ==== Sys2Proof/Machine/Slot.lean ====
section
/-! DEFINITION. What one slot of the command port does: reset, idle, or one command. -/

namespace Sys2Proof.Machine

/-- An accepted command (R70): decode the word, run the command, or answer an illegal word with
`ILLEGAL_COMMAND` (R67, R304). -/
def runCommand (s : State) : Step :=
  match decode s.port.cmdWord with
  | .ok i => exec i s
  | .error _ => .next (s.raise .illegalCommand)

/-- The slot at the port, before the next one comes up. `rst = 1` accepts no command (R33, R340); a
command that a reset cuts short gets no response, and the reset leaves the state whatever the command
had done (R31). -/
def slot (s : State) : Step :=
  if s.port.rst then .next s.applyReset
  else if s.port.cmdValid then
    if s.port.rstBeforeRsp then .next s.applyReset
    else runCommand s
  else .next s.idleSlot

/-- The next slot comes to the port. -/
def thenAdvance : Step → Step
  | .next s => .next s.advance
  | .fault r => .fault r
  | .refused r => .refused r

/-- A word of the opcode table at the command port, offered as a command (R33). The operand words and
the later slots stay. -/
def offerWord (s : State) (w : BitVec 32) : State :=
  { s with port := { s.port with rst := false, cmdValid := true, cmdWord := w, rstBeforeRsp := false } }

end Sys2Proof.Machine
end

