-- ==== Sys2Proof/Machine/Step.lean ====
section
/-! DEFINITION. The step function: one slot of the command port. -/

namespace Sys2Proof.Machine

/-- One step of the machine: one slot of the command port (R35), then the next one comes up. -/
def step (s : State) : Host.Outcome State Fault Refusal := thenAdvance (slot s)

/-- The command word `w` at the command port of `s`: the very next step runs it. The core fetches
nothing (R21); this is the host offering the command. -/
def State.withFetchWord (s : State) (nbits w : Nat) : State :=
  offerWord s (BitVec.ofNat 32 (w % 2 ^ nbits))

end Sys2Proof.Machine
end

