-- ==== Sys2Proof/Machine/Assembler.lean ====
section
/-! DEFINITION. The assembler syntax (R72) and the pseudo-commands (R73): what a host sends for a line of
text. No command depends on it. -/

namespace Sys2Proof

/-- What a host sends for one line: the command word and the two operand words (R60). -/
structure HostCommand where
  word : BitVec 32
  opa : Word
  opb : Word
  deriving DecidableEq, Repr

/-- The names that may stand first in a line: the nineteen mnemonics and the pseudo-commands. -/
inductive AsmName where
  | add | sub | mul | div
  | cmpeq | cmpne | cmplt | cmple | cmpgt | cmpge
  | fromint | toint | fromraw
  | rdtw | wrx | rdx | bitrev | fftFwd | fftInv
  | raw | neg | zero
  deriving DecidableEq, Repr

/-- An operand as written: decimal, or hexadecimal with its number of digits. -/
inductive AsmNumber where
  | dec (v : Int)
  | hex (digits : Nat) (v : Nat)
  deriving DecidableEq, Repr

/-- `<mnemonic>[.<policy>] [#<imm>] [<opa> [, <opb>]]` (R72). -/
structure AsmLine where
  name : AsmName
  policy : Option Policy
  imm : Option Nat
  operands : List AsmNumber
  deriving DecidableEq, Repr

/-! ### Lines to commands -/

/-- The raw value an operand stands for: a decimal integer in `MIN .. MAX`, or a bit pattern of exactly
`W/4` hexadecimal digits (R72). -/
def AsmNumber.value (c : Cfg) : AsmNumber → Option Int
  | .dec v => if c.inRange v then some v else none
  | .hex digits v => if digits = c.w / 4 then some (trunc c.w (v : Int)) else none

/-- The pseudo-commands of R73 that stand for another line. -/
def AsmLine.expand (l : AsmLine) : AsmLine :=
  match l.name with
  | .raw => { l with name := .fromraw }
  | .neg => { l with name := .sub, operands := .dec 0 :: l.operands }
  | .zero => { l with name := .fromint, operands := .dec 0 :: l.operands }
  | _ => l

/-- The command a line names: the policy is required on formats AP and TP and forbidden elsewhere, the
immediate is required on IX, forbidden on AP and AN, and on TN and TP the instance's own `N` when left
out (R72, R73). -/
def AsmLine.instr (c : Cfg) (l : AsmLine) : Option Instr :=
  match l.name, l.policy, l.imm with
  | .add, some p, none => some (.add p)
  | .sub, some p, none => some (.sub p)
  | .mul, some p, none => some (.mul p)
  | .div, some p, none => some (.div p)
  | .cmpeq, none, none => some .cmpeq
  | .cmpne, none, none => some .cmpne
  | .cmplt, none, none => some .cmplt
  | .cmple, none, none => some .cmple
  | .cmpgt, none, none => some .cmpgt
  | .cmpge, none, none => some .cmpge
  | .fromint, none, none => some .fromint
  | .toint, none, none => some .toint
  | .fromraw, none, none => some .fromraw
  | .rdtw, none, some k => some (.rdtw k)
  | .wrx, none, some k => some (.wrx k)
  | .rdx, none, some k => some (.rdx k)
  | .bitrev, none, k => some (.bitrev (k.getD c.n))
  | .fftFwd, some p, k => some (.fftFwd p (k.getD c.n))
  | .fftInv, some p, k => some (.fftInv p (k.getD c.n))
  | _, _, _ => none

/-- How many operand words a command uses (R65). -/
def Instr.operandCount : Instr → Nat
  | .add _ => 2
  | .sub _ => 2
  | .mul _ => 2
  | .div _ => 2
  | .cmpeq => 2
  | .cmpne => 2
  | .cmplt => 2
  | .cmple => 2
  | .cmpgt => 2
  | .cmpge => 2
  | .fromint => 1
  | .toint => 1
  | .fromraw => 1
  | .rdtw _ => 0
  | .wrx _ => 2
  | .rdx _ => 0
  | .bitrev _ => 0
  | .fftFwd _ _ => 0
  | .fftInv _ _ => 0

/-- The command a host sends for a line; an operand the command ignores is left out and is sent as 0
(R72). `none` where the line is no line of the syntax. -/
def assemble (c : Cfg) (line : AsmLine) : Option HostCommand :=
  let l := line.expand
  match l.instr c, l.operands.mapM (AsmNumber.value c) with
  | some i, some vs =>
    if i.wellFormed ∧ vs.length = i.operandCount then
      some ⟨encode i, Machine.toWord c.w (vs.getD 0 0), Machine.toWord c.w (vs.getD 1 0)⟩
    else none
  | _, _ => none

/-- The line that writes a command with the given operands: the mnemonic, the policy of formats AP and TP, the
immediate of formats IX, TN and TP (R72). -/
def Instr.line : Instr → List AsmNumber → AsmLine
  | .add p, xs => ⟨.add, some p, none, xs⟩
  | .sub p, xs => ⟨.sub, some p, none, xs⟩
  | .mul p, xs => ⟨.mul, some p, none, xs⟩
  | .div p, xs => ⟨.div, some p, none, xs⟩
  | .cmpeq, xs => ⟨.cmpeq, none, none, xs⟩
  | .cmpne, xs => ⟨.cmpne, none, none, xs⟩
  | .cmplt, xs => ⟨.cmplt, none, none, xs⟩
  | .cmple, xs => ⟨.cmple, none, none, xs⟩
  | .cmpgt, xs => ⟨.cmpgt, none, none, xs⟩
  | .cmpge, xs => ⟨.cmpge, none, none, xs⟩
  | .fromint, xs => ⟨.fromint, none, none, xs⟩
  | .toint, xs => ⟨.toint, none, none, xs⟩
  | .fromraw, xs => ⟨.fromraw, none, none, xs⟩
  | .rdtw k, xs => ⟨.rdtw, none, some k, xs⟩
  | .wrx k, xs => ⟨.wrx, none, some k, xs⟩
  | .rdx k, xs => ⟨.rdx, none, some k, xs⟩
  | .bitrev k, xs => ⟨.bitrev, none, some k, xs⟩
  | .fftFwd p k, xs => ⟨.fftFwd, some p, some k, xs⟩
  | .fftInv p k, xs => ⟨.fftInv, some p, some k, xs⟩

/-! ### Text to lines -/

/-- The text of each name; `FFT.FWD` and `FFT.INV` contain a dot of their own (R72). -/
def asmNames : List (List Char × AsmName) :=
  [(['A', 'D', 'D'], .add), (['S', 'U', 'B'], .sub), (['M', 'U', 'L'], .mul), (['D', 'I', 'V'], .div),
   (['C', 'M', 'P', 'E', 'Q'], .cmpeq), (['C', 'M', 'P', 'N', 'E'], .cmpne),
   (['C', 'M', 'P', 'L', 'T'], .cmplt), (['C', 'M', 'P', 'L', 'E'], .cmple),
   (['C', 'M', 'P', 'G', 'T'], .cmpgt), (['C', 'M', 'P', 'G', 'E'], .cmpge)]
  ++
  [(['F', 'R', 'O', 'M', 'I', 'N', 'T'], .fromint), (['T', 'O', 'I', 'N', 'T'], .toint),
   (['F', 'R', 'O', 'M', 'R', 'A', 'W'], .fromraw), (['R', 'D', 'T', 'W'], .rdtw),
   (['W', 'R', 'X'], .wrx), (['R', 'D', 'X'], .rdx), (['B', 'I', 'T', 'R', 'E', 'V'], .bitrev),
   (['F', 'F', 'T', '.', 'F', 'W', 'D'], .fftFwd), (['F', 'F', 'T', '.', 'I', 'N', 'V'], .fftInv),
   (['R', 'A', 'W'], .raw), (['N', 'E', 'G'], .neg), (['Z', 'E', 'R', 'O'], .zero)]

/-- The name of exactly this text. -/
def asmName (t : List Char) : Option AsmName := (asmNames.find? fun e => e.1 = t).map Prod.snd

/-- `<mnemonic>[.<policy>]`: a last `.S` is Saturate, a last `.W` WrapAround (R72). -/
def asmHead (t : List Char) : Option (AsmName × Option Policy) :=
  match t.reverse with
  | 'S' :: '.' :: r => (asmName r.reverse).map fun m => (m, some .saturate)
  | 'W' :: '.' :: r => (asmName r.reverse).map fun m => (m, some .wrapAround)
  | _ => (asmName t).map fun m => (m, none)

/-- The value of a digit character in a base up to 16. -/
def digitValue (base : Nat) (ch : Char) : Option Nat :=
  let v :=
    if 48 ≤ ch.toNat ∧ ch.toNat ≤ 57 then some (ch.toNat - 48)
    else if 65 ≤ ch.toNat ∧ ch.toNat ≤ 70 then some (ch.toNat - 55)
    else if 97 ≤ ch.toNat ∧ ch.toNat ≤ 102 then some (ch.toNat - 87)
    else none
  v.filter fun d => decide (d < base)

/-- The value of digits read after `acc`. -/
def digitsValue (base : Nat) : Nat → List Char → Option Nat
  | acc, [] => some acc
  | acc, ch :: t =>
    match digitValue base ch with
    | some d => digitsValue base (acc * base + d) t
    | none => none

/-- A non-empty run of digits. -/
def digits (base : Nat) (t : List Char) : Option Nat := if t = [] then none else digitsValue base 0 t

/-- A number: decimal with an optional minus sign, or `0x` hexadecimal. -/
def asmNumber : List Char → Option AsmNumber
  | '0' :: 'x' :: t => (digits 16 t).map (AsmNumber.hex t.length)
  | '-' :: t => (digits 10 t).map fun v => .dec (-(v : Int))
  | t => (digits 10 t).map fun v => .dec (v : Int)

/-- `#<imm>`: decimal or `0x` hexadecimal (R72). -/
def asmImm : List Char → Option Nat
  | '#' :: '0' :: 'x' :: t => digits 16 t
  | '#' :: t => digits 10 t
  | _ => none

/-- The text up to a `;`: the rest is comment (R72). -/
def dropComment (t : List Char) : List Char := t.takeWhile fun ch => ch ≠ ';'

/-- The text without the blanks at its two ends. -/
def trimBlanks (t : List Char) : List Char :=
  ((t.dropWhile fun ch => ch = ' ').reverse.dropWhile fun ch => ch = ' ').reverse

/-- The parts of a text between commas. -/
def splitCommas : List Char → List (List Char)
  | [] => [[]]
  | ch :: t =>
    if ch = ',' then [] :: splitCommas t
    else
      match splitCommas t with
      | part :: parts => (ch :: part) :: parts
      | [] => [[ch]]

/-- The operands of a line: numbers between commas, or nothing. -/
def asmOperands (t : List Char) : Option (List AsmNumber) :=
  if trimBlanks t = [] then some [] else (splitCommas t).mapM fun part => asmNumber (trimBlanks part)

/-- A line of text (R72). -/
def parseLine (text : List Char) : Option AsmLine :=
  let t := trimBlanks (dropComment text)
  let head := t.takeWhile fun ch => ch ≠ ' '
  let rest := trimBlanks (t.dropWhile fun ch => ch ≠ ' ')
  match asmHead head with
  | none => none
  | some (name, policy) =>
    if rest.head? = some '#' then
      let imm := rest.takeWhile fun ch => ch ≠ ' '
      match asmImm imm, asmOperands (rest.dropWhile fun ch => ch ≠ ' ') with
      | some k, some ns => some ⟨name, policy, some k, ns⟩
      | _, _ => none
    else (asmOperands rest).map fun ns => ⟨name, policy, none, ns⟩

/-- What a host sends for a line of text (R72, R73). -/
def assembleText (c : Cfg) (text : List Char) : Option HostCommand :=
  match parseLine text with
  | some l => assemble c l
  | none => none

end Sys2Proof

namespace Sys2Proof.Machine

/-- A command at the port: the next step accepts it (R33). The later slots stay. -/
def State.offer (s : State) (h : HostCommand) : State :=
  { s with port := ⟨false, true, h.word, h.opa, h.opb, false⟩ }

end Sys2Proof.Machine
end

