-- ==== Sys2Proof/Machine/Reference.lean ====
section
/-! DEFINITION. The reference discrete transform (R200 to R211): pure functions over the same
arithmetic, a correctness oracle. No command reaches it. -/

namespace Sys2Proof

/-- Why the reference transform gives no value. -/
inductive RefError where
  /-- the divisor `from_int(N)` is 0 (R203, R209) -/
  | divByZero
  /-- a twiddle has no raw value in the configuration (R151) -/
  | noTwiddle
  deriving DecidableEq, Repr

/-- One output bin: `acc <- (0, 0)`, then `acc <- acc + x[n] * twiddle(k n)`, ascending `n` (R201).
`none` where a twiddle has no raw value. -/
def dftBin (c : Cfg) (p : Policy) (inverse : Bool) (xs : List Sample) (k : Nat) : Option Sample :=
  (List.range xs.length).foldl
    (fun acc n =>
      match acc, makeTwiddle c xs.length (k * n) inverse with
      | some a, some t => some (cadd c p a (cmul c p (xs.getD n Sample.zero) t))
      | _, _ => none)
    (some Sample.zero)

/-- The forward reference transform of a sequence of any length `N ≥ 1` (R201). -/
def dft (c : Cfg) (p : Policy) (xs : List Sample) : Option (List Sample) :=
  (List.range xs.length).mapM (dftBin c p false xs)

/-- The forward reference transform of a real sequence: imaginary parts 0 (R202). -/
def dftReal (c : Cfg) (p : Policy) (rs : List Raw) : Option (List Sample) :=
  dft c p (rs.map fun r => ⟨r, 0⟩)

/-- The inverse reference transform: inverse twiddles, every output divided by `from_int(N)` (R203). -/
def idft (c : Cfg) (p : Policy) (xs : List Sample) : Except RefError (List Sample) :=
  match (List.range xs.length).mapM (dftBin c p true xs) with
  | none => .error .noTwiddle
  | some ys =>
    let nfx := c.fromInt xs.length
    if nfx = 0 then .error .divByZero
    else .ok (ys.map fun y => ⟨aluQuot c p y.re nfx, aluQuot c p y.im nfx⟩)

end Sys2Proof
end

