-- ==== Sys2Proof/Safety.lean ====
section
/-! DEFINITION. What a good state is, and the terms the statements are written in. -/

namespace Sys2Proof.Machine

/-! ### Good states -/

/-- A response as R71 has it: `W`-bit result words, both 0 on an error, and never the construction
error (R300, R303). -/
def Response.ok (c : Cfg) (r : Response) : Bool :=
  decide (r.res.toNat < 2 ^ c.w) && decide (r.res2.toNat < 2 ^ c.w) &&
  decide (r.err ≠ .ok → r.res = 0 ∧ r.res2 = 0) && decide (r.err ≠ .invalidConfiguration)

/-- The invariant: the configuration is one of an instance, the sample memory has its canonical form
and holds raw values in the `N` cells only, and the response is a response. -/
def State.good (s : State) : Bool :=
  s.cfg.isInstance && Memory.wf s.xmem && Memory.fits s.cfg s.xmem &&
  (match s.rsp with
   | none => true
   | some r => r.ok s.cfg)

/-- Every one of the `N` cells holds a value (R342). -/
def State.allWritten (s : State) : Bool := (Memory.readAll s.xmem s.cfg.n).isSome

/-- The samples in the `N` cells of a memory; the empty list where a cell has no value. -/
def State.cells (s : State) : List Sample := (Memory.readAll s.xmem s.cfg.n).getD []

/-- A command is accepted (R33) and no reset cuts it short (R31; the flag is the model's, log 7): the slots in
which a command runs to its response. -/
def Port.accepts (d : Port) : Bool := !d.rst && d.cmdValid && !d.rstBeforeRsp

/-! ### Words and configurations -/

/-- The command word `w` and the command `i` stand for each other. -/
def Coded (w : BitVec 32) (i : Instr) : Prop := decode w = .ok i ∧ encode i = w

/-- The words of R67 that are no command: an `OPC` value not in the table; `RSV` not 00; `P = 1` in a format
AN, IX or TN command; `IMM` not 0 in a format AP or AN command. -/
abbrev IllegalWord (w : BitVec 32) : Prop :=
  w.toNat / 2 ^ 24 ∉ [0x01, 0x02, 0x03, 0x04, 0x10, 0x11, 0x12, 0x13, 0x14, 0x15,
    0x20, 0x21, 0x22, 0x30, 0x40, 0x41, 0x50, 0x51, 0x52] ∨
  w.toNat / 2 ^ 21 % 4 ≠ 0 ∨
  (w.toNat / 2 ^ 23 % 2 = 1 ∧ w.toNat / 2 ^ 24 ∈ [0x10, 0x11, 0x12, 0x13, 0x14, 0x15,
    0x20, 0x21, 0x22, 0x30, 0x40, 0x41, 0x50]) ∨
  (w.toNat % 2 ^ 21 ≠ 0 ∧ w.toNat / 2 ^ 24 ∈ [0x01, 0x02, 0x03, 0x04,
    0x10, 0x11, 0x12, 0x13, 0x14, 0x15, 0x20, 0x21, 0x22])

/-- What R11, R12 and R13 ask of a configuration. -/
def Constructible (c : Cfg) : Prop :=
  1 ≤ c.totalBits ∧ c.totalBits ≤ 64 ∧ c.fracBits < c.totalBits ∧
  (∃ k, k ≤ 20 ∧ c.n = 2 ^ k) ∧ (2 ≤ c.n → c.fracBits ≤ c.w - 2) ∧
  (c.invScale = .mulRecip → c.fracBits ≤ c.w - 2)

/-! ### Answers of a command -/

/-- `t` differs from `s` in the sample memory, which is now `m`, and in the response, which has the
error code `e` and the `W`-bit result words that read as `a` and `b`. The configuration, the port and
the later slots are as before. -/
def Answered (s t : State) (m : Memory) (e : ErrCode) (a b : Int) : Prop :=
  t.cfg = s.cfg ∧ t.port = s.port ∧ t.inputs = s.inputs ∧ t.xmem = m ∧
  ∃ r, t.rsp = some r ∧ r.err = e ∧ r.res.toNat < 2 ^ s.cfg.w ∧ r.res2.toNat < 2 ^ s.cfg.w ∧
    sintW s.cfg.w r.res = a ∧ sintW s.cfg.w r.res2 = b

/-- The command completes: error code `OK`, results `a` and `b`, the sample memory now `m`, nothing
else changed. -/
def Completes (i : Instr) (s : State) (m : Memory) (a b : Int) : Prop :=
  ∃ t, exec i s = .next t ∧ Answered s t m .ok a b

/-- The command is refused by the core with the error `e`: both results 0 and nothing changed (R306). -/
def Errs (i : Instr) (s : State) (e : ErrCode) : Prop :=
  ∃ t, exec i s = .next t ∧ Answered s t s.xmem e 0 0

/-- The next state, where there is one. -/
def nextOf : Step → Option State
  | .next s => some s
  | .fault _ => none
  | .refused _ => none

/-- `y` is the wide value `w` after the policy `p` (R104): `w` itself in range; past a bound, that bound
under Saturate (R105) and the opposite bound under WrapAround (R106). -/
def Clamped (c : Cfg) (p : Policy) (w y : Int) : Prop :=
  (c.min ≤ w ∧ w ≤ c.max → y = w) ∧
  (c.max < w → y = if p = .saturate then c.max else c.min) ∧
  (w < c.min → y = if p = .saturate then c.min else c.max)

/-! ### Rounding of reals (R16), for statements about the twiddle table -/

/-- `r = rha(x)`: `sign(x) * floor(|x| + 1/2)` (R16). -/
def IsRha (x : ℝ) (r : Int) : Prop :=
  (0 ≤ x → r = ⌊x + 1 / 2⌋) ∧ (x < 0 → r = -⌊-x + 1 / 2⌋)

/-- `t` is the pair of `Q(cos)` and `Q(sin)` of the angle `∓2π (m mod n) / n` with `f` fraction bits
(R180). -/
def IsTwiddle (f n m : Nat) (inverse : Bool) (t : Sample) : Prop :=
  let angle : ℝ := (if inverse then 1 else -1) * (2 * Real.pi * ((m % n : Nat) : ℝ) / (n : ℝ))
  IsRha (2 ^ f * Real.cos angle) t.re ∧ IsRha (2 ^ f * Real.sin angle) t.im

end Sys2Proof.Machine
end

