-- ==== Sys2Proof/Certificates/Slice0/Obligations.lean ====
section
/-! DEFINITION. The statements for the provers. `R<n>` is the rule of spec/ a statement formalises, `D<n>` the
decision of spec/92_eei_decisions.md that the rule rests on. A statement about a state holds of every
state that meets its hypotheses, so of every configuration. -/

open Sys2Proof Sys2Proof.Machine

/-! ### Encoding -/

/-- Eleven command words of R65, one or more of every format, and four illegal words of R67, written out. -/
def Obligations.SpecWordsDecode : Prop :=
  decode 0x01000000 = .ok (.add .saturate) ∧ decode 0x01800000 = .ok (.add .wrapAround) ∧
  decode 0x04800000 = .ok (.div .wrapAround) ∧ decode 0x12000000 = .ok .cmplt ∧
  decode 0x20000000 = .ok .fromint ∧ decode 0x30000003 = .ok (.rdtw 3) ∧
  decode 0x40000003 = .ok (.wrx 3) ∧ decode 0x411FFFFF = .ok (.rdx 2097151) ∧
  decode 0x50000008 = .ok (.bitrev 8) ∧ decode 0x51800008 = .ok (.fftFwd .wrapAround 8) ∧
  decode 0x52000100 = .ok (.fftInv .saturate 256) ∧
  decode 0x00000000 = .error .unusedOpcode ∧ decode 0x01200000 = .error .reservedBits ∧
  decode 0x12800000 = .error .policyNotAllowed ∧ decode 0x04000007 = .error .immediateNotAllowed

/-- Decoding an encoded command gives it back, for every command and every value of its fields. -/
def Obligations.EveryCommandRoundTrips : Prop :=
  ∀ i : Instr, i.wellFormed = true → decode (encode i) = .ok i

/-- A word that decodes is the encoding of the command it decodes to, and that command is well formed:
each word has one meaning. -/
def Obligations.DecodedWordIsItsEncoding : Prop :=
  ∀ (w : BitVec 32) (i : Instr), decode w = .ok i → i.wellFormed = true ∧ encode i = w

/-- R70: the rows of R65 with `(word AND mask) == match` are the one row the decoder selects, or none
where it selects none; no word matches two rows. -/
def Obligations.DecoderSelectsTheTableRow : Prop :=
  ∀ w : BitVec 32, (opcodeTable.filter fun r => r.selects w).map (fun r => r.mnemonic) =
    match decode w with
    | .ok i => [i.mnemonic]
    | .error _ => []

/-- R67 (D16): exactly the words `IllegalWord` names are no command; every other word is one. -/
def Obligations.IllegalWordsExactly : Prop :=
  ∀ w : BitVec 32, (∃ e, decode w = .error e) ↔ IllegalWord w

/-- R67, R304 (D16): a word accepted and not cut short (log 7) that is no command is answered
`ILLEGAL_COMMAND` with both results 0, whatever the operand words are, and changes no state. That the next
slot then comes to the port, idle after the last, is the model's choice (log 3). -/
def Obligations.IllegalWordIsAnswered : Prop :=
  ∀ s : State, s.port.accepts = true → IllegalWord s.port.cmdWord →
    ∃ t, step s = .next t ∧ t.rsp = some ⟨.illegalCommand, 0, 0⟩ ∧ t.cfg = s.cfg ∧ t.xmem = s.xmem ∧
      t.port = s.inputs.headD Port.idle ∧ t.inputs = s.inputs.tail

/-! ### The step -/

/-- When a command is accepted and not cut short (log 7) and its word decodes to `i`, the step is `exec i`,
after which the next slot comes to the port (log 3). -/
def Obligations.StepRunsTheDecodedCommand : Prop :=
  ∀ (s : State) (i : Instr), s.port.accepts = true → decode s.port.cmdWord = .ok i →
    step s = match exec i s with
      | .next t => .next { t with port := t.inputs.headD Port.idle, inputs := t.inputs.tail }
      | .fault r => .fault r
      | .refused r => .refused r

/-- R318, R314: in a slot without a command and without reset nothing changes and no response is
given. -/
def Obligations.IdleSlotChangesNothing : Prop :=
  ∀ s : State, s.port.rst = false → s.port.cmdValid = false →
    ∃ t, step s = .next t ∧ t.cfg = s.cfg ∧ t.xmem = s.xmem ∧ t.rsp = none ∧
      t.port = s.inputs.headD Port.idle ∧ t.inputs = s.inputs.tail

/-- R340 (D32): reset, between commands or while one runs, leaves every cell without value, gives no response
and keeps the constants of the instance. The slot flag for a command that is cut short (log 7), and that the
next slot then comes to the port, idle after the last (log 3), are the model's choices. -/
def Obligations.ResetEmptiesTheSampleMemory : Prop :=
  ∀ s : State, (s.port.rst = true ∨ s.port.cmdValid = true ∧ s.port.rstBeforeRsp = true) →
    ∃ t, step s = .next t ∧ t.cfg = s.cfg ∧ (∀ i, Memory.read t.xmem i = none) ∧ t.rsp = none ∧
      t.port = s.inputs.headD Port.idle ∧ t.inputs = s.inputs.tail

/-- R34, R31: exactly one response per command accepted and not cut short by a reset, and none in any other
slot: a command that R33 calls accepted and a reset abandons gets none. That a cut-short command is a flag of
its slot is the model's choice (log 7). -/
def Obligations.OneResponsePerAcceptedCommand : Prop :=
  ∀ s t : State, step s = .next t → (t.rsp.isSome = true ↔ s.port.accepts = true)

/-- R30, R35, R307: the sample memory and the response after a slot are functions of the configuration,
the sample memory and the slot alone: earlier responses and later slots do not matter. -/
def Obligations.SlotOutcomeDependsOnMemoryAndSlotOnly : Prop :=
  ∀ s s' : State, s'.cfg = s.cfg → s'.xmem = s.xmem → s'.port = s.port →
    match step s, step s' with
    | .next t, .next t' => t'.cfg = t.cfg ∧ t'.xmem = t.xmem ∧ t'.rsp = t.rsp
    | .fault r, .fault r' => r' = r
    | .refused r, .refused r' => r' = r
    | _, _ => False

/-- R33, R60: operand words a command does not use are ignored, and of the others only the low `W` bits
count. -/
def Obligations.UnusedOperandsAreIgnored : Prop :=
  ∀ (i : Instr) (s : State) (a b : Word),
    (1 ≤ i.operandCount → a.toNat % 2 ^ s.cfg.w = s.port.cmdOpa.toNat % 2 ^ s.cfg.w) →
    (2 ≤ i.operandCount → b.toNat % 2 ^ s.cfg.w = s.port.cmdOpb.toNat % 2 ^ s.cfg.w) →
    exec i { s with port := { s.port with cmdOpa := a, cmdOpb := b } } =
      match exec i s with
      | .next t => .next { t with port := { s.port with cmdOpa := a, cmdOpb := b } }
      | .fault r => .fault r
      | .refused r => .refused r

/-- R64, R16 (D27): an operand is the signed `W`-bit reading of its word: congruent to the word modulo `2^W`
and in `-2^(W-1) .. 2^(W-1) - 1`; a result in range is driven as the `W`-bit word that reads as it. -/
def Obligations.OperandsAreSignedWords : Prop :=
  ∀ s : State,
    (2 ^ s.cfg.w : Int) ∣ s.opA - s.port.cmdOpa.toNat ∧ (2 ^ s.cfg.w : Int) ∣ s.opB - s.port.cmdOpb.toNat ∧
    -2 ^ (s.cfg.w - 1) ≤ s.opA ∧ s.opA < 2 ^ (s.cfg.w - 1) ∧
    -2 ^ (s.cfg.w - 1) ≤ s.opB ∧ s.opB < 2 ^ (s.cfg.w - 1) ∧
    ∀ r : Int, s.cfg.min ≤ r → r ≤ s.cfg.max →
      sintW s.cfg.w (toWord s.cfg.w r) = r ∧ (toWord s.cfg.w r).toNat < 2 ^ s.cfg.w

/-! ### FXALU -/

/-- R110: `ADD` completes with `a + b` through the policy; nothing but the response changes. -/
def Obligations.AddCompletes : Prop :=
  Coded 0x01000000 (.add .saturate) ∧ Coded 0x01800000 (.add .wrapAround) ∧ ∀ (p : Policy) (s : State),
    ∃ y, Completes (.add p) s s.xmem y 0 ∧ Clamped s.cfg p (s.opA + s.opB) y

/-- R111: `SUB` completes with `a - b` through the policy. -/
def Obligations.SubCompletes : Prop :=
  Coded 0x02000000 (.sub .saturate) ∧ Coded 0x02800000 (.sub .wrapAround) ∧ ∀ (p : Policy) (s : State),
    ∃ y, Completes (.sub p) s s.xmem y 0 ∧ Clamped s.cfg p (s.opA - s.opB) y

/-- R112 (D19): `MUL` completes with `floor(a * b / 2^F)` through the policy. -/
def Obligations.MulCompletes : Prop :=
  Coded 0x03000000 (.mul .saturate) ∧ Coded 0x03800000 (.mul .wrapAround) ∧ ∀ (p : Policy) (s : State),
    ∃ q y, q * 2 ^ s.cfg.fracBits ≤ s.opA * s.opB ∧ s.opA * s.opB < (q + 1) * 2 ^ s.cfg.fracBits ∧
      Completes (.mul p) s s.xmem y 0 ∧ Clamped s.cfg p q y

/-- `DIV` with a divisor that is not 0 completes with `a * 2^F / b`, truncated toward zero, through the
policy. The truncation is the spec's own reading (R113: from general knowledge, not in source; D20). With a
divisor 0 it is `DIV_BY_ZERO`. -/
def Obligations.DivCompletesOrReportsZero : Prop :=
  Coded 0x04000000 (.div .saturate) ∧ Coded 0x04800000 (.div .wrapAround) ∧ ∀ (p : Policy) (s : State),
    (s.opB ≠ 0 → ∃ q y,
      q.natAbs = (s.opA.natAbs * 2 ^ s.cfg.fracBits) / s.opB.natAbs ∧
      (0 ≤ s.opA * s.opB → 0 ≤ q) ∧ (s.opA * s.opB ≤ 0 → q ≤ 0) ∧
      Completes (.div p) s s.xmem y 0 ∧ Clamped s.cfg p q y) ∧
    (s.opB = 0 → Errs (.div p) s .divByZero)

/-- R301: a division by zero is reported by `DIV` when the divisor's raw value is 0, under both policies and
whatever the dividend is, and by `FFT.INV` with the length `N` on an instance with `INV_SCALE = DIV` and
`NFX = 0`, whatever `XMEM` holds; and by nothing else. -/
def Obligations.DivisionByZeroIsReported : Prop :=
  ∀ s : State,
    (∀ p, s.opB = 0 → Errs (.div p) s .divByZero) ∧
    (∀ p, s.cfg.invScale = .div → s.cfg.nfx = 0 → Errs (.fftInv p s.cfg.n) s .divByZero) ∧
    ∀ (i : Instr) (t : State) (r : Response), exec i s = .next t → t.rsp = some r → r.err = .divByZero →
      (∃ p, i = .div p ∧ s.opB = 0) ∨ ∃ p, i = .fftInv p s.cfg.n ∧ s.cfg.invScale = .div ∧ s.cfg.nfx = 0

/-- R131 to R136: the six comparisons complete with 1 or 0, signed. -/
def Obligations.ComparisonsComplete : Prop :=
  Coded 0x10000000 .cmpeq ∧ Coded 0x11000000 .cmpne ∧ Coded 0x12000000 .cmplt ∧
  Coded 0x13000000 .cmple ∧ Coded 0x14000000 .cmpgt ∧ Coded 0x15000000 .cmpge ∧ ∀ s : State,
    Completes .cmpeq s s.xmem (if s.opA = s.opB then 1 else 0) 0 ∧
    Completes .cmpne s s.xmem (if s.opA ≠ s.opB then 1 else 0) 0 ∧
    Completes .cmplt s s.xmem (if s.opA < s.opB then 1 else 0) 0 ∧
    Completes .cmple s s.xmem (if s.opA ≤ s.opB then 1 else 0) 0 ∧
    Completes .cmpgt s s.xmem (if s.opA > s.opB then 1 else 0) 0 ∧
    Completes .cmpge s s.xmem (if s.opA ≥ s.opB then 1 else 0) 0

/-- R140 (D27): `FROMINT` completes with the low `W` bits of `i * 2^F`, read as two's complement, for
every `i`: no range check, no policy. The constant `NFX` is made from `N` in the same way. -/
def Obligations.FromIntKeepsTheLowBits : Prop :=
  Coded 0x20000000 .fromint ∧
  (∀ s : State, ∃ y, Completes .fromint s s.xmem y 0 ∧
    (2 ^ s.cfg.w : Int) ∣ y - s.opA * 2 ^ s.cfg.fracBits ∧ s.cfg.min ≤ y ∧ y ≤ s.cfg.max) ∧
  ∀ c : Cfg, (2 ^ c.w : Int) ∣ c.nfx - c.n * 2 ^ c.fracBits ∧ c.min ≤ c.nfx ∧ c.nfx ≤ c.max

/-- R141 (D26): `TOINT` completes with `floor(a / 2^F)`. -/
def Obligations.ToIntFloors : Prop :=
  Coded 0x21000000 .toint ∧ ∀ s : State,
    ∃ y, Completes .toint s s.xmem y 0 ∧ y * 2 ^ s.cfg.fracBits ≤ s.opA ∧
      s.opA < (y + 1) * 2 ^ s.cfg.fracBits

/-- R142 (D41): `FROMRAW` completes with its operand, and the result word is the operand word. -/
def Obligations.FromRawPassesTheWord : Prop :=
  Coded 0x22000000 .fromraw ∧ ∀ s : State, Completes .fromraw s s.xmem s.opA 0 ∧
    ∀ t, exec .fromraw s = .next t → ∃ r, t.rsp = some r ∧
      r.res.toNat = s.port.cmdOpa.toNat % 2 ^ s.cfg.w

/-- R37: the unit function `alu(op, p, a, b) -> (y, dz)` is what the thirteen commands answer with. -/
def Obligations.AluUnitIsWhatTheCommandsAnswer : Prop :=
  ∀ (s : State) (p : Policy) (i : Instr) (op : AluOp),
    (i, op) ∈ [(Instr.add p, AluOp.add), (.sub p, .sub), (.mul p, .mul), (.div p, .div),
      (.cmpeq, .eq), (.cmpne, .ne), (.cmplt, .lt), (.cmple, .le), (.cmpgt, .gt), (.cmpge, .ge),
      (.fromint, .fromInt), (.toint, .toInt), (.fromraw, .fromRaw)] →
    ∃ t, exec i s = .next t ∧
      if (alu s.cfg op p s.opA s.opB).2 then Answered s t s.xmem .divByZero 0 0
      else Answered s t s.xmem .ok (alu s.cfg op p s.opA s.opB).1 0

/-- R116, R117: laws of the four operations on raw values, under both policies. -/
def Obligations.ArithmeticLaws : Prop :=
  ∀ (c : Cfg) (p : Policy) (a b : Int), c.inRange a = true → c.inRange b = true →
    aluAdd c p a 0 = a ∧ aluMul c p a 0 = 0 ∧ aluSub c p a a = 0 ∧
    aluAdd c p a b = aluAdd c p b a ∧ aluMul c p a b = aluMul c p b a ∧
    aluDiv c p a 0 = .error .divByZero ∧ aluMul c p a c.one = a ∧ aluDiv c p a c.one = .ok a ∧
    (c.fracBits ≤ c.w - 2 →
      aluAdd c .saturate c.max (c.fromInt 1) = c.max ∧ aluSub c .saturate c.min (c.fromInt 1) = c.min ∧
      aluAdd c .wrapAround c.max (c.fromInt 1) = c.min)

/-- R104, R105, R106: the policy function gives a wide value in range as it is and a bound outside the range,
so its results are in `MIN .. MAX`. Its further laws are the spec's own inference (R117): the policies agree
exactly in range, Saturate is monotone and WrapAround is not. -/
def Obligations.PolicyFunctionShape : Prop :=
  ∀ c : Cfg,
    (∀ p v, c.inRange (narrow c p v) = true ∧ Clamped c p v (narrow c p v)) ∧
    (∀ v, narrow c .saturate v = narrow c .wrapAround v ↔ c.overflows v = false) ∧
    (∀ v w, v ≤ w → narrow c .saturate v ≤ narrow c .saturate w) ∧
    (∃ v w, v ≤ w ∧ narrow c .wrapAround w < narrow c .wrapAround v)

/-- R102: every wide value fits the promoted width `WW = 2W`, so computing it never overflows. -/
def Obligations.WideValuesFitThePromotedWidth : Prop :=
  ∀ (c : Cfg) (a b w : Int), c.fracBits ≤ c.w - 1 → c.inRange a = true → c.inRange b = true →
    (w = a + b ∨ w = a - b ∨ w = a * b ∨ w = asr (a * b) c.fracBits ∨ w = shl a c.fracBits ∨
      b ≠ 0 ∧ w = tdiv (shl a c.fracBits) b) →
    -2 ^ (c.ww - 1) ≤ w ∧ w < 2 ^ (c.ww - 1)

/-! ### TWROM -/

/-- R185 (D38): `RDTW` completes with the entry of the twiddle ROM; an index past the table is
`BAD_INDEX`. The table has the form of R26, which every instance's has (`StepKeepsGood`). -/
def Obligations.RdtwAnswersTheEntry : Prop :=
  (∀ k, k < 2 ^ 21 → Coded (BitVec.ofNat 32 (0x30000000 + k)) (.rdtw k)) ∧ ∀ (k : Nat) (s : State), s.cfg.twOk = true →
    (k < s.cfg.n / 2 → ∃ x, s.cfg.tw[k]? = some x ∧ Completes (.rdtw k) s s.xmem x.re x.im) ∧
    (s.cfg.n / 2 ≤ k → Errs (.rdtw k) s .badIndex)

/-- R180, R182 (D24, D25): the generator's integer arithmetic gives the exactly rounded cosine and sine
of the real angle, for every length and index; it gives no value only where a component has no raw
value. -/
def Obligations.TwiddleGeneratorIsExact : Prop :=
  ∀ (c : Cfg) (n m : Nat) (inverse : Bool), 1 ≤ n →
    ∃ t, IsTwiddle c.fracBits n m inverse t ∧
      makeTwiddle c n m inverse = if c.sampleOk t then some t else none

/-- R181, R183: a configuration that passes construction has a canonical table of `N/2` entries in
range, with `TW[0] = 1` and, for `N ≥ 4`, `TW[N/4] = -i`. -/
def Obligations.CanonicalTableExists : Prop :=
  ∀ c : Cfg, c.valid = true →
    ∃ tw, c.canonicalTw = some tw ∧ tw.length = c.n / 2 ∧ tw.all c.sampleOk = true ∧
      (2 ≤ c.n → tw[0]? = some ⟨c.one, 0⟩) ∧ (4 ≤ c.n → tw[c.n / 4]? = some ⟨0, -c.one⟩)

/-! ### Sample memory -/

/-- R165 (D13): `WRX` in range gives its cell the operand pair and leaves every other cell alone; out of range
it is `BAD_INDEX` and writes no cell. -/
def Obligations.WrxWritesOneCell : Prop :=
  (∀ k, k < 2 ^ 21 → Coded (BitVec.ofNat 32 (0x40000000 + k)) (.wrx k)) ∧ ∀ (k : Nat) (s : State),
    (k < s.cfg.n → ∃ m, Completes (.wrx k) s m 0 0 ∧ Memory.read m k = some ⟨s.opA, s.opB⟩ ∧
      ∀ j, j ≠ k → Memory.read m j = Memory.read s.xmem j) ∧
    (s.cfg.n ≤ k → Errs (.wrx k) s .badIndex)

/-- R166, R25 (D13, D33): `RDX` of a cell with a value completes with that pair and changes nothing; of a cell
without value it is the model's fault; out of range it is `BAD_INDEX`. -/
def Obligations.RdxReadsOneCell : Prop :=
  (∀ k, k < 2 ^ 21 → Coded (BitVec.ofNat 32 (0x41000000 + k)) (.rdx k)) ∧ ∀ (k : Nat) (s : State), Memory.fits s.cfg s.xmem = true →
    (∀ x, k < s.cfg.n → Memory.read s.xmem k = some x → Completes (.rdx k) s s.xmem x.re x.im) ∧
    (k < s.cfg.n → Memory.read s.xmem k = none → exec (.rdx k) s = .fault .unwrittenCell) ∧
    (s.cfg.n ≤ k → Errs (.rdx k) s .badIndex)

/-- R48, R167: through the port, a `WRX i` and then an `RDX i` return the two operand words written, bit
for bit. -/
def Obligations.WriteThenReadReturnsTheWords : Prop :=
  ∀ (s : State) (k : Nat) (d : Port) (ds : List Port), s.cfg.valid = true → k < s.cfg.n →
    s.port.accepts = true → s.port.cmdWord = encode (.wrx k) →
    s.inputs = d :: ds → d.accepts = true → d.cmdWord = encode (.rdx k) →
    ∃ t u r, step s = .next t ∧ step t = .next u ∧ u.rsp = some r ∧ r.err = .ok ∧
      r.res.toNat = s.port.cmdOpa.toNat % 2 ^ s.cfg.w ∧
      r.res2.toNat = s.port.cmdOpb.toNat % 2 ^ s.cfg.w

/-! ### BREV -/

/-- R220: bit `b` of `BR[i]` is bit `levels-1-b` of `i`, and the entry is an index of `levels` bits. That the
table is its own inverse is the spec's own inference (R221). -/
def Obligations.BitReversalTable : Prop :=
  ∀ levels i : Nat, i < 2 ^ levels →
    brev levels i < 2 ^ levels ∧ brev levels (brev levels i) = i ∧
    ∀ b, b < levels → (brev levels i).testBit b = i.testBit (levels - 1 - b)

/-- R222: after the in-place swaps, cell `i` holds what cell `BR[i]` held before, for every `i`. -/
def Obligations.PermutationPlacesEveryCell : Prop :=
  ∀ (c : Cfg) (xs : List Sample), c.valid = true → xs.length = c.n →
    (perm c xs).length = c.n ∧ ∀ i, i < c.n → (perm c xs)[i]? = xs[c.brAt i]?

/-- R223 (D38): `BITREV` with the length `N` completes with the permuted cells; with another length it is
`SIZE_MISMATCH` whatever `XMEM` holds. -/
def Obligations.BitrevPermutesTheCells : Prop :=
  (∀ k, k < 2 ^ 21 → Coded (BitVec.ofNat 32 (0x50000000 + k)) (.bitrev k)) ∧ ∀ (len : Nat) (s : State),
    (s.cfg.valid = true → len = s.cfg.n → s.allWritten = true →
      ∃ m, Completes (.bitrev len) s m 0 0 ∧
        (∀ i, i < s.cfg.n → Memory.read m i = Memory.read s.xmem (s.cfg.brAt i)) ∧
        ∀ i, s.cfg.n ≤ i → Memory.read m i = none) ∧
    (len ≠ s.cfg.n → Errs (.bitrev len) s .sizeMismatch)

/-- R223: two `BITREV` in a row restore `XMEM`. -/
def Obligations.TwoBitrevRestoreTheCells : Prop :=
  ∀ s : State, s.good = true → s.allWritten = true →
    ∃ t u, exec (.bitrev s.cfg.n) s = .next t ∧ exec (.bitrev s.cfg.n) t = .next u ∧ u.xmem = s.xmem

/-! ### BFLY and FFTCORE -/

/-- R237: one butterfly on raw values is ten operations, each narrowed on its own, both outputs from the
same `v` and the original `u`. -/
def Obligations.ButterflyWrittenOut : Prop :=
  ∀ (c : Cfg) (p : Policy) (ur ui a b e d : Int),
    let mul := fun x y => narrow c p (asr (x * y) c.fracBits)
    let vr := narrow c p (mul a e - mul b d)
    let vi := narrow c p (mul a d + mul b e)
    bfly c p ⟨ur, ui⟩ ⟨a, b⟩ ⟨e, d⟩ =
      (⟨narrow c p (ur + vr), narrow c p (ui + vi)⟩, ⟨narrow c p (ur - vr), narrow c p (ui - vi)⟩)

/-- R239: with the twiddle `1` the butterfly is the sum and difference of its inputs; the product with
the twiddle `-i` is `(b, -a)` when neither component is `MIN`. -/
def Obligations.ButterflyWithUnitTwiddles : Prop :=
  ∀ (c : Cfg) (p : Policy) (u x : Sample), c.sampleOk x = true →
    bfly c p u x ⟨c.one, 0⟩ = (cadd c p u x, csub c p u x) ∧
    (x.re ≠ c.min → x.im ≠ c.min → cmul c p x ⟨0, -c.one⟩ = ⟨x.im, -x.re⟩)

/-- R255, R257: one stage does, on the cells as they were before the stage, exactly the butterfly of
every pair `(i, i + half)` whose index `i` has bit `t` clear, with the twiddle `TW[(i mod half) * step]`:
the butterflies of a stage touch disjoint cells, so their order does not matter. -/
def Obligations.StageIsItsDisjointButterflies : Prop :=
  ∀ (c : Cfg) (p : Policy) (xs : List Sample) (t i : Nat), c.valid = true → xs.length = c.n →
    t < c.levels → i < c.n → i.testBit t = false →
    let ys := stagePass Sample.zero c.twAt (bfly c p) c.n (2 ^ t) xs
    let sd := bfly c p (xs.getD i Sample.zero) (xs.getD (i + 2 ^ t) Sample.zero)
      (c.twAt (i % 2 ^ t * (c.n / 2 ^ (t + 1))))
    ys[i]? = some sd.1 ∧ ys[i + 2 ^ t]? = some sd.2

/-- R255: the loop nest, with exact complex arithmetic and exact twiddles in the place of the core's,
computes the forward discrete transform `X[k] = Σ_n x[n] W_N^(kn)`, unscaled. The loop nest is the one
`FFT.FWD` runs. -/
def Obligations.LoopNestComputesTheTransform : Prop :=
  ∀ (levels : Nat) (xs : List ℂ), xs.length = 2 ^ levels → ∀ k, k < 2 ^ levels →
    (forwardCells (0 : ℂ)
        (fun j => Complex.exp (-(2 * Real.pi * Complex.I * (j : ℂ) / ((2 ^ levels : Nat) : ℂ))))
        (fun u x w => (u + x * w, u - x * w)) levels (2 ^ levels) xs).getD k 0 =
      ∑ n ∈ Finset.range (2 ^ levels), xs.getD n 0 *
        Complex.exp (-(2 * Real.pi * Complex.I * ((k * n : Nat) : ℂ) / ((2 ^ levels : Nat) : ℂ)))

/-- R270, of every instance and any twiddle table: the forward transform of an impulse is the impulse's
value in every bin, exactly, under both policies. -/
def Obligations.ImpulseGivesAFlatSpectrum : Prop :=
  ∀ (c : Cfg) (p : Policy) (x : Sample), c.valid = true → c.sampleOk x = true →
    forward c p (x :: List.replicate (c.n - 1) Sample.zero) = List.replicate c.n x

/-- R253, R261 (and R252, R263, R309; D13, D21, D23, D29, D31): with the length `N` and every cell written `FFT.FWD` completes with
the cells of `forward`, and `FFT.INV` with conjugate, `forward`, conjugate, scale; a wrong length is
`SIZE_MISMATCH`, before the zero divisor, which is `DIV_BY_ZERO`; both leave `XMEM` untouched whatever
it holds. -/
def Obligations.TransformCommandsComplete : Prop :=
  (∀ k, k < 2 ^ 21 →
    Coded (BitVec.ofNat 32 (0x51000000 + k)) (.fftFwd .saturate k) ∧
    Coded (BitVec.ofNat 32 (0x51800000 + k)) (.fftFwd .wrapAround k) ∧
    Coded (BitVec.ofNat 32 (0x52000000 + k)) (.fftInv .saturate k) ∧
    Coded (BitVec.ofNat 32 (0x52800000 + k)) (.fftInv .wrapAround k)) ∧
  ∀ (p : Policy) (len : Nat) (s : State),
    (len = s.cfg.n → s.allWritten = true →
      Completes (.fftFwd p len) s (Memory.ofCells (forward s.cfg p s.cells)) 0 0) ∧
    (len ≠ s.cfg.n → Errs (.fftFwd p len) s .sizeMismatch ∧ Errs (.fftInv p len) s .sizeMismatch) ∧
    (len = s.cfg.n → s.cfg.invScale = .div → s.cfg.nfx = 0 → Errs (.fftInv p len) s .divByZero) ∧
    (len = s.cfg.n → (s.cfg.invScale = .div → s.cfg.nfx ≠ 0) → s.allWritten = true →
      Completes (.fftInv p len) s
        (Memory.ofCells (((forward s.cfg p (s.cells.map (conj s.cfg p))).map (conj s.cfg p)).map
          (scale s.cfg p))) 0 0)

/-- R25, V1: past its checks, a transform command with some cell without value is the model's fault. -/
def Obligations.TransformsFaultOnUnwrittenCells : Prop :=
  ∀ (p : Policy) (s : State), s.allWritten = false →
    exec (.bitrev s.cfg.n) s = .fault .unwrittenCell ∧
    exec (.fftFwd p s.cfg.n) s = .fault .unwrittenCell ∧
    ((s.cfg.invScale = .div → s.cfg.nfx ≠ 0) → exec (.fftInv p s.cfg.n) s = .fault .unwrittenCell)

/-- R253, R265: `forward` at `N = 1` changes nothing; at `N = 2`, with the canonical `TW[0] = 1`, it is
the sum and the difference. -/
def Obligations.ForwardAtOneAndTwoPoints : Prop :=
  ∀ (c : Cfg) (p : Policy) (x y : Sample),
    (c.n = 1 → forward c p [x] = [x]) ∧
    (c.n = 2 → c.valid = true → c.tw = [⟨c.one, 0⟩] → c.sampleOk y = true →
      forward c p [x, y] = [cadd c p x y, csub c p x y])

/-- R265: `inverse` at `N = 1` under `DIV`. With `F ≤ W - 2` the cell is unchanged except that an
imaginary part `MIN` becomes `MIN + 1` under Saturate; with `F = W - 1` both components are negated
through the policy. -/
def Obligations.InverseAtOnePoint : Prop :=
  ∀ (c : Cfg) (p : Policy) (x : Sample), c.n = 1 → c.valid = true → c.invScale = .div →
    c.sampleOk x = true →
    let im := if x.im = c.min ∧ p = .saturate then c.min + 1 else x.im
    (c.fracBits ≤ c.w - 2 → inverse c p [x] = [⟨x.re, im⟩]) ∧
    (c.fracBits = c.w - 1 → inverse c p [x] = [⟨narrow c p (-x.re), narrow c p (-im)⟩])

/-- R262: the closed forms of `NFX` and `RECIP`. -/
def Obligations.ScalingConstantsClosedForm : Prop :=
  ∀ c : Cfg, c.valid = true →
    (c.levels + c.fracBits ≤ c.w - 2 → c.nfx = 2 ^ (c.levels + c.fracBits)) ∧
    (c.levels + c.fracBits = c.w - 1 → c.nfx = c.min) ∧
    (c.w ≤ c.levels + c.fracBits → c.nfx = 0) ∧
    (c.levels ≤ c.fracBits → c.recip = 2 ^ (c.fracBits - c.levels)) ∧
    (c.levels = c.fracBits + 1 → c.recip = 1) ∧
    (c.fracBits + 2 ≤ c.levels → c.recip = 0)

/-- R262: within their limits both scalings divide by `N` and never clamp: `DIV` truncates toward zero,
`MULRECIP` takes the floor. -/
def Obligations.ScalingDividesByN : Prop :=
  ∀ (c : Cfg) (p : Policy) (v : Int), c.valid = true → c.inRange v = true →
    (c.invScale = .div → c.levels + c.fracBits ≤ c.w - 2 → scaleRaw c p v = Int.tdiv v c.n) ∧
    (c.invScale = .mulRecip → c.levels ≤ c.fracBits → scaleRaw c p v = Int.fdiv v c.n)

/-! ### Errors -/

/-- R306 (D35): an answer with an error has both results 0, and nothing has changed. Of a command, and of a
step; that the next slot then comes to the port, idle after the last, is the model's choice (log 3). -/
def Obligations.ErrorsChangeNothing : Prop :=
  (∀ (i : Instr) (s t : State) (r : Response), exec i s = .next t → t.rsp = some r → r.err ≠ .ok →
    t = { s with rsp := some ⟨r.err, 0, 0⟩ }) ∧
  ∀ (s t : State) (r : Response), step s = .next t → t.rsp = some r → r.err ≠ .ok →
    t = { s with rsp := some ⟨r.err, 0, 0⟩, port := s.inputs.headD Port.idle, inputs := s.inputs.tail }

/-- R300, R311: which commands can raise which error. `ADD`, `SUB`, `MUL`, the comparisons, `FROMINT`,
`TOINT` and `FROMRAW` never fail, and no decoded command answers with another class. -/
def Obligations.WhoRaisesWhichError : Prop :=
  ∀ (i : Instr) (s t : State) (r : Response), exec i s = .next t → t.rsp = some r →
    match r.err with
    | .ok => True
    | .divByZero => (∃ p, i = .div p) ∨ ∃ p k, i = .fftInv p k
    | .sizeMismatch => (∃ k, i = .bitrev k) ∨ (∃ p k, i = .fftFwd p k) ∨ ∃ p k, i = .fftInv p k
    | .badIndex => (∃ k, i = .rdtw k) ∨ (∃ k, i = .wrx k) ∨ ∃ k, i = .rdx k
    | .invalidConfiguration => False
    | .illegalCommand => False

/-- R24: no command but `WRX`, `BITREV`, `FFT.FWD` and `FFT.INV` changes the sample memory, and no
command changes the configuration, the port or the later slots. -/
def Obligations.OnlyFourCommandsWriteTheSampleMemory : Prop :=
  ∀ (i : Instr) (s t : State), exec i s = .next t →
    t.cfg = s.cfg ∧ t.port = s.port ∧ t.inputs = s.inputs ∧
    (t.xmem ≠ s.xmem →
      (∃ k, i = .wrx k) ∨ (∃ k, i = .bitrev k) ∨ (∃ p k, i = .fftFwd p k) ∨ ∃ p k, i = .fftInv p k)

/-- R310, R25: the machine stops only where a command reads a cell without value; when every cell is
written every step answers a next state, whatever the values in `XMEM` are. -/
def Obligations.MachineStopsOnUnwrittenCellsOnly : Prop :=
  ∀ s : State, (s.allWritten = true → ∃ t, step s = .next t) ∧ ∀ r, step s ≠ .refused r

/-! ### Invariants -/

/-- R31: the machine right after reset is a good state, in which no cell holds a value and no response is
pending. The instance it names is the model's choice (log 2). -/
def Obligations.ResetStateIsGood : Prop :=
  State.reset.good = true ∧ State.reset.xmem = [] ∧ State.reset.rsp = none

/-- Every step from a good state gives a good state: the configuration stays one of an instance, the
sample memory keeps its canonical form, its indexes below `N` and its values in `MIN .. MAX`, and a
response carries `W`-bit words, 0 on an error, never the construction error. -/
def Obligations.StepKeepsGood : Prop :=
  ∀ s t : State, s.good = true → step s = .next t → t.good = true

/-- R8, R26, R31: no step, reset included, changes the configuration or the twiddle ROM. -/
def Obligations.StepKeepsTheConfiguration : Prop :=
  ∀ s t : State, step s = .next t → t.cfg = s.cfg

/-! ### Construction, quantisation, reference transform, assembler -/

/-- R9, R11, R12, R13 (D5, D6): the storage width, and the construction checks spelled out. -/
def Obligations.ConstructionChecks : Prop :=
  ∀ c : Cfg,
    (c.w ∈ [8, 16, 32, 64] ∧ (c.totalBits ≤ 64 → c.totalBits ≤ c.w) ∧
      ∀ v ∈ [8, 16, 32, 64], c.totalBits ≤ v → c.w ≤ v) ∧
    (c.valid = true ↔ Constructible c)

/-- R11, R12, R13 (D5, D6): elaboration gives an instance, right after its first reset, for the configurations
that pass the checks, and *Invalid configuration* for every other. -/
def Obligations.ElaborationGivesAnInstanceOrAnError : Prop :=
  ∀ c : Cfg,
    (Constructible c → ∃ s, elaborate c = .ok s ∧ s.good = true ∧ (∀ i, Memory.read s.xmem i = none) ∧
      s.rsp = none ∧ s.cfg.totalBits = c.totalBits ∧ s.cfg.fracBits = c.fracBits ∧ s.cfg.n = c.n ∧
      s.cfg.invScale = c.invScale) ∧
    (¬ Constructible c → elaborate c = .error .invalidConfiguration)

/-- R150, R151, R154, R155 (D24, D40): `Q(x)` is `x * 2^F` rounded to nearest, halves away from zero, where
that is in range, and not defined elsewhere; it is within `2^(-F-1)` of `x`, and `Q(val(r)) = r`. -/
def Obligations.QuantisationRoundsToNearest : Prop :=
  ∀ c : Cfg,
    (∀ (x : ℚ) (r : Int),
      (r = if 0 ≤ x then ⌊x * 2 ^ c.fracBits + 1 / 2⌋ else -⌊-x * 2 ^ c.fracBits + 1 / 2⌋) →
      c.quantise x = (if c.inRange r then some r else none) ∧
      |c.val r - x| ≤ 1 / 2 ^ (c.fracBits + 1)) ∧
    (∀ r : Int, c.inRange r = true → c.quantise (c.val r) = some r)

/-- R153: `val(r)` is `r / 2^F`, exactly. `to_float` and `to_double` are as near to it as any number of 24 and
of 53 significant bits (the two precisions are the model's, log 15), whatever the free tie rule is; with
`W ≤ 32` `to_double` is `val` itself. -/
def Obligations.FloatingValueIsNearest : Prop :=
  ∀ (c : Cfg) (r : Int),
    c.val r * 2 ^ c.fracBits = r ∧
    (∀ m e : Int, |m| < 2 ^ 24 → |c.toFloat r - c.val r| ≤ |(m : ℚ) * 2 ^ e - c.val r|) ∧
    (∀ m e : Int, |m| < 2 ^ 53 → |c.toDouble r - c.val r| ≤ |(m : ℚ) * 2 ^ e - c.val r|) ∧
    (∃ m e : Int, |m| < 2 ^ 24 ∧ c.toFloat r = m * 2 ^ e) ∧
    (∃ m e : Int, |m| < 2 ^ 53 ∧ c.toDouble r = m * 2 ^ e) ∧
    (c.w ≤ 32 → c.inRange r = true → c.toDouble r = c.val r)

/-- R203, R209: the inverse reference transform of a sequence whose twiddles exist is `DIV_BY_ZERO`
exactly when its length times `2^F` is a multiple of `2^W`. -/
def Obligations.ReferenceInverseDividesByZero : Prop :=
  ∀ (c : Cfg) (p : Policy) (xs : List Sample), c.fracBits ≤ c.w - 2 →
    (idft c p xs = .error .divByZero ↔ 2 ^ c.w ∣ xs.length * 2 ^ c.fracBits)

/-- R72, R73 (D17). What assembles is a command, and unused operands are sent as 0. A line that names a well-formed
command, with as many operands as the command uses, each a raw value, assembles to that command's word and
to operand words that read back as written. Every well-formed command with operands in range has such a line.
The pseudo-commands are their expansions. -/
def Obligations.AssembledLinesAreCommands : Prop :=
  (∀ (c : Cfg) (l : AsmLine) (h : HostCommand), assemble c l = some h →
    ∃ i, decode h.word = .ok i ∧ l.expand.instr c = some i ∧
      (i.operandCount ≤ 1 → h.opb = 0) ∧ (i.operandCount = 0 → h.opa = 0)) ∧
  (∀ (c : Cfg) (l : AsmLine) (i : Instr) (vs : List Int), l.expand.instr c = some i → i.wellFormed = true →
    l.expand.operands.mapM (AsmNumber.value c) = some vs → vs.length = i.operandCount →
    ∃ h, assemble c l = some h ∧ h.word = encode i ∧
      sintW c.w h.opa = vs.getD 0 0 ∧ sintW c.w h.opb = vs.getD 1 0 ∧
      h.opa.toNat < 2 ^ c.w ∧ h.opb.toNat < 2 ^ c.w) ∧
  (∀ (c : Cfg) (i : Instr) (a b : Int), i.wellFormed = true → c.inRange a = true → c.inRange b = true →
    ∃ h, assemble c (i.line ([.dec a, .dec b].take i.operandCount)) = some h ∧ h.word = encode i ∧
      (1 ≤ i.operandCount → sintW c.w h.opa = a) ∧ (2 ≤ i.operandCount → sintW c.w h.opb = b)) ∧
  (∀ (c : Cfg) (p : Policy) (x : AsmNumber),
    assemble c ⟨.neg, some p, none, [x]⟩ = assemble c ⟨.sub, some p, none, [.dec 0, x]⟩ ∧
    assemble c ⟨.raw, none, none, [x]⟩ = assemble c ⟨.fromraw, none, none, [x]⟩ ∧
    assemble c ⟨.zero, none, none, []⟩ = assemble c ⟨.fromint, none, none, [.dec 0]⟩ ∧
    assemble c ⟨.bitrev, none, none, []⟩ = assemble c ⟨.bitrev, none, some c.n, []⟩ ∧
    assemble c ⟨.fftFwd, some p, none, []⟩ = assemble c ⟨.fftFwd, some p, some c.n, []⟩ ∧
    assemble c ⟨.fftInv, some p, none, []⟩ = assemble c ⟨.fftInv, some p, some c.n, []⟩)
end

