-- ==== Sys2Proof/Laws/Arith.lean ====
section
/-! SUPPORT. Integer notation, words and the policy function: ranges and round trips. -/

namespace Sys2Proof

/-! ### Widths -/

theorem Cfg.w_cases (c : Cfg) : c.w = 8 ∨ c.w = 16 ∨ c.w = 32 ∨ c.w = 64 := by
  unfold Cfg.w storageWidth; split_ifs <;> simp

theorem Cfg.w_pos (c : Cfg) : 1 ≤ c.w := by rcases c.w_cases with h | h | h | h <;> omega

theorem Cfg.w_le (c : Cfg) : c.w ≤ 64 := by rcases c.w_cases with h | h | h | h <;> omega

/-- `2^n = 2 * 2^(n-1)` for `n ≥ 1`, over the integers. -/
theorem two_pow_pred {n : Nat} (h : 1 ≤ n) : ((2 ^ n : Nat) : Int) = 2 * ((2 ^ (n - 1) : Nat) : Int) := by
  obtain ⟨k, rfl⟩ : ∃ k, n = k + 1 := ⟨n - 1, by omega⟩
  simp [pow_succ]; ring

theorem two_pow_pos (n : Nat) : (0 : Int) < ((2 ^ n : Nat) : Int) := by positivity

/-! ### Truncation -/

theorem trunc_range {n : Nat} (h : 1 ≤ n) (v : Int) :
    -((2 ^ (n - 1) : Nat) : Int) ≤ trunc n v ∧ trunc n v ≤ ((2 ^ (n - 1) : Nat) : Int) - 1 := by
  have h2 := two_pow_pred h
  have hp := two_pow_pos n
  have h0 := Int.emod_nonneg v (ne_of_gt hp)
  have h1 := Int.emod_lt_of_pos v hp
  unfold trunc; dsimp only
  split_ifs <;> omega

/-- Truncation changes a value by a multiple of `2^n`. -/
theorem trunc_emod (n : Nat) (v : Int) :
    trunc n v % ((2 ^ n : Nat) : Int) = v % ((2 ^ n : Nat) : Int) := by
  unfold trunc; dsimp only
  split_ifs <;> simp

theorem trunc_congr {n : Nat} {u v : Int} (h : u % ((2 ^ n : Nat) : Int) = v % ((2 ^ n : Nat) : Int)) :
    trunc n u = trunc n v := by unfold trunc; rw [h]

/-- A value in range is its own truncation. -/
theorem trunc_eq_self {n : Nat} (h : 1 ≤ n) {v : Int} (h0 : -((2 ^ (n - 1) : Nat) : Int) ≤ v)
    (h1 : v ≤ ((2 ^ (n - 1) : Nat) : Int) - 1) : trunc n v = v := by
  have h2 := two_pow_pred h
  unfold trunc; dsimp only
  by_cases hv : 0 ≤ v
  · rw [Int.emod_eq_of_lt hv (by omega), if_pos (by omega)]
  · have : v % ((2 ^ n : Nat) : Int) = v + ((2 ^ n : Nat) : Int) := by
      rw [← Int.add_emod_right, Int.emod_eq_of_lt (by omega) (by omega)]
    rw [this, if_neg (by omega)]; omega

/-! ### Range of a configuration -/

theorem Cfg.inRange_iff (c : Cfg) (v : Int) : c.inRange v = true ↔ c.min ≤ v ∧ v ≤ c.max := by
  simp [Cfg.inRange]

theorem Cfg.max_eq (c : Cfg) : c.max = -c.min - 1 := by simp [Cfg.max, Cfg.min]

theorem Cfg.min_neg (c : Cfg) : c.min < 0 := by
  have := two_pow_pos (c.w - 1); simp only [Cfg.min]; omega

theorem Cfg.max_nonneg (c : Cfg) : 0 ≤ c.max := by have := c.min_neg; have := c.max_eq; omega

theorem Cfg.zero_inRange (c : Cfg) : c.inRange 0 = true := by
  rw [c.inRange_iff]; exact ⟨le_of_lt c.min_neg, c.max_nonneg⟩

theorem Cfg.trunc_inRange (c : Cfg) (v : Int) : c.inRange (trunc c.w v) = true := by
  rw [c.inRange_iff]; exact trunc_range c.w_pos v

theorem Cfg.trunc_self (c : Cfg) {v : Int} (h : c.inRange v = true) : trunc c.w v = v := by
  rw [c.inRange_iff] at h; exact trunc_eq_self c.w_pos h.1 h.2

/-- `MAX ≥ 127`: the smallest storage width is 8. -/
theorem Cfg.max_ge (c : Cfg) : 127 ≤ c.max := by
  rcases c.w_cases with h | h | h | h <;> simp [Cfg.max, h]

theorem truth_inRange (c : Cfg) (b : Bool) : c.inRange (truth b) = true := by
  have := c.max_ge; have := c.min_neg
  rw [c.inRange_iff]; cases b <;> simp [truth] <;> omega

/-! ### Words -/

theorem Machine.toWord_lt (c : Cfg) (r : Int) : (Machine.toWord c.w r).toNat < 2 ^ c.w := by
  have hp := two_pow_pos c.w
  have h0 := Int.emod_nonneg r (ne_of_gt hp)
  have h1 := Int.emod_lt_of_pos r hp
  have : (2 : Nat) ^ c.w ≤ 2 ^ 64 := Nat.pow_le_pow_right (by omega) c.w_le
  unfold Machine.toWord
  rw [BitVec.toNat_ofNat]
  exact lt_of_le_of_lt (Nat.mod_le _ _) (by omega)

/-- The word a result is driven as reads back as the result (R64). -/
theorem Machine.sintW_toWord (c : Cfg) {r : Int} (h : c.inRange r = true) :
    Machine.sintW c.w (Machine.toWord c.w r) = r := by
  have hp := two_pow_pos c.w
  have h0 := Int.emod_nonneg r (ne_of_gt hp)
  have h1 := Int.emod_lt_of_pos r hp
  have h64 : (2 : Nat) ^ c.w ≤ 2 ^ 64 := Nat.pow_le_pow_right (by omega) c.w_le
  have hn : (Machine.toWord c.w r).toNat = (r % ((2 ^ c.w : Nat) : Int)).toNat := by
    unfold Machine.toWord
    rw [BitVec.toNat_ofNat]
    exact Nat.mod_eq_of_lt (by omega)
  unfold Machine.sintW
  rw [hn, Int.toNat_of_nonneg h0, ← c.trunc_self h]
  apply trunc_congr
  rw [c.trunc_self h]; simp

theorem Machine.sintW_inRange (c : Cfg) (b : Word) : c.inRange (Machine.sintW c.w b) = true :=
  c.trunc_inRange _

theorem Machine.sintW_zero (c : Cfg) : Machine.sintW c.w 0 = 0 := by
  have := c.trunc_self c.zero_inRange
  simpa [Machine.sintW] using this

theorem Machine.opA_inRange (s : Machine.State) : s.cfg.inRange s.opA = true := s.cfg.trunc_inRange _
theorem Machine.opB_inRange (s : Machine.State) : s.cfg.inRange s.opB = true := s.cfg.trunc_inRange _

/-- An operand of an assembled line is a raw value (R72). -/
theorem AsmNumber.value_inRange {c : Cfg} {x : AsmNumber} {v : Int} (h : x.value c = some v) :
    c.inRange v = true := by
  cases x with
  | dec u => simp only [AsmNumber.value] at h; split_ifs at h with hu; injection h with h; exact h ▸ hu
  | hex d u => simp only [AsmNumber.value] at h; split_ifs at h; injection h with h; exact h ▸ c.trunc_inRange _

/-- The operands of an assembled line are raw values. -/
theorem AsmNumber.values_inRange {c : Cfg} : ∀ {xs : List AsmNumber} {vs : List Int},
    xs.mapM (AsmNumber.value c) = some vs → ∀ v ∈ vs, c.inRange v = true := by
  intro xs
  induction xs with
  | nil => intro vs h; simp at h; subst h; simp
  | cons x xs ih =>
    intro vs h v hv
    simp only [List.mapM_cons, Option.bind_eq_bind, Option.bind_eq_some_iff, Option.pure_def,
      Option.some.injEq] at h
    obtain ⟨u, hu, us, hus, rfl⟩ := h
    rcases List.mem_cons.mp hv with rfl | hv
    · exact AsmNumber.value_inRange hu
    · exact ih hus v hv

/-! ### The policy function -/

theorem narrow_of_inRange (c : Cfg) (p : Policy) {v : Int} (h : c.inRange v = true) : narrow c p v = v := by
  rw [c.inRange_iff] at h
  unfold narrow; rw [if_neg (by omega), if_neg (by omega)]

theorem narrow_inRange (c : Cfg) (p : Policy) (v : Int) : c.inRange (narrow c p v) = true := by
  have := c.min_neg; have := c.max_nonneg
  rw [c.inRange_iff]
  cases p <;> simp only [narrow] <;> split_ifs <;> omega

/-! ### Results of the ALU are raw values -/

theorem aluAdd_inRange (c : Cfg) (p : Policy) (a b : Int) : c.inRange (aluAdd c p a b) = true :=
  narrow_inRange c p _
theorem aluSub_inRange (c : Cfg) (p : Policy) (a b : Int) : c.inRange (aluSub c p a b) = true :=
  narrow_inRange c p _
theorem aluMul_inRange (c : Cfg) (p : Policy) (a b : Int) : c.inRange (aluMul c p a b) = true :=
  narrow_inRange c p _
theorem aluQuot_inRange (c : Cfg) (p : Policy) (a b : Int) : c.inRange (aluQuot c p a b) = true :=
  narrow_inRange c p _
theorem Cfg.fromInt_inRange (c : Cfg) (i : Int) : c.inRange (c.fromInt i) = true := c.trunc_inRange _

/-- An arithmetic right shift keeps a raw value in range (R141). -/
theorem asr_inRange (c : Cfg) {a : Int} (k : Nat) (h : c.inRange a = true) : c.inRange (asr a k) = true := by
  have hmin := c.min_neg; have hmax := c.max_nonneg
  have hp := two_pow_pos k
  rw [c.inRange_iff] at h ⊢
  unfold asr
  constructor
  · apply Int.le_ediv_of_mul_le hp; nlinarith
  · by_cases ha : 0 ≤ a
    · exact le_trans (Int.ediv_le_self _ ha) h.2
    · have := Int.ediv_neg_of_neg_of_pos (by omega : a < 0) hp; omega

theorem Cfg.toInt_inRange (c : Cfg) {a : Int} (h : c.inRange a = true) : c.inRange (c.toInt a) = true :=
  asr_inRange c _ h

/-- The spec's truncating division is the library's. -/
theorem tdiv_eq (a b : Int) : tdiv a b = Int.tdiv a b := by
  unfold tdiv
  rcases Int.natAbs_eq a with ha | ha <;> rcases Int.natAbs_eq b with hb | hb <;>
    generalize a.natAbs = m at ha <;> generalize b.natAbs = n at hb <;> subst ha hb <;>
    rcases Nat.eq_zero_or_pos m with rfl | hm <;> rcases Nat.eq_zero_or_pos n with rfl | hn <;>
    simp [Int.sign_natCast_of_ne_zero, Nat.pos_iff_ne_zero.mp, *]

/-! ### Samples -/

theorem Cfg.sampleOk_iff (c : Cfg) (x : Sample) :
    c.sampleOk x = true ↔ c.inRange x.re = true ∧ c.inRange x.im = true := by simp [Cfg.sampleOk]

theorem cadd_ok (c : Cfg) (p : Policy) (x y : Sample) : c.sampleOk (cadd c p x y) = true := by
  simp [c.sampleOk_iff, cadd, aluAdd_inRange]
theorem csub_ok (c : Cfg) (p : Policy) (x y : Sample) : c.sampleOk (csub c p x y) = true := by
  simp [c.sampleOk_iff, csub, aluSub_inRange]
theorem cmul_ok (c : Cfg) (p : Policy) (x y : Sample) : c.sampleOk (cmul c p x y) = true := by
  simp [c.sampleOk_iff, cmul, aluSub_inRange, aluAdd_inRange]
theorem conj_ok (c : Cfg) (p : Policy) {x : Sample} (h : c.sampleOk x = true) :
    c.sampleOk (conj c p x) = true := by
  rw [c.sampleOk_iff] at h
  simp [c.sampleOk_iff, conj, h.1, aluSub_inRange]
theorem bfly_ok (c : Cfg) (p : Policy) (u x w : Sample) :
    c.sampleOk (bfly c p u x w).1 = true ∧ c.sampleOk (bfly c p u x w).2 = true :=
  ⟨cadd_ok c p _ _, csub_ok c p _ _⟩
theorem scaleRaw_inRange (c : Cfg) (p : Policy) (v : Int) : c.inRange (scaleRaw c p v) = true := by
  unfold scaleRaw; split
  · exact aluQuot_inRange c p _ _
  · exact aluMul_inRange c p _ _
theorem scale_ok (c : Cfg) (p : Policy) (x : Sample) : c.sampleOk (scale c p x) = true := by
  simp [c.sampleOk_iff, scale, scaleRaw_inRange]

end Sys2Proof
end

