-- ==== Sys2Proof/Laws/Decode.lean ====
section
/-! SUPPORT. The fields of a packed command word, and the decoder on a word whose fields are known. -/

namespace Sys2Proof

/-! ### Fields of a packed word -/

/-- The number a packed word is, with the powers of two written out. -/
theorem packWord_toNat {opc p imm : Nat} (ho : opc < 256) (hp : p < 2) (hi : imm < 2097152) :
    (packWord opc p imm).toNat = opc * 16777216 + p * 8388608 + imm := by
  simp only [packWord, BitVec.toNat_ofNat]
  exact Nat.mod_eq_of_lt (by norm_num; omega)

theorem opcOf_eq (w : BitVec 32) : opcOf w = w.toNat / 16777216 := by
  have h := w.isLt
  simp only [opcOf, BitVec.extractLsb'_toNat, Nat.shiftRight_eq_div_pow]
  exact Nat.mod_eq_of_lt (by norm_num at h ⊢; omega)

theorem rsvOf_eq (w : BitVec 32) : rsvOf w = w.toNat / 2097152 % 4 := by
  simp only [rsvOf, BitVec.extractLsb'_toNat, Nat.shiftRight_eq_div_pow, Nat.reducePow]

theorem immOf_eq (w : BitVec 32) : immOf w = w.toNat % 2097152 := by
  simp only [immOf, BitVec.extractLsb'_toNat, Nat.shiftRight_zero, Nat.reducePow]

theorem policyOf_eq (w : BitVec 32) :
    policyOf w = if w.toNat / 8388608 % 2 = 1 then .wrapAround else .saturate := by
  have h : w.getLsbD 23 = decide (w.toNat / 8388608 % 2 = 1) := by
    rw [BitVec.getLsbD, Nat.testBit_eq_decide_div_mod_eq]
  simp only [policyOf, h, decide_eq_true_eq]

theorem opcOf_packWord {opc p imm : Nat} (ho : opc < 256) (hp : p < 2) (hi : imm < 2097152) :
    opcOf (packWord opc p imm) = opc := by
  rw [opcOf_eq, packWord_toNat ho hp hi]; omega

theorem rsvOf_packWord {opc p imm : Nat} (ho : opc < 256) (hp : p < 2) (hi : imm < 2097152) :
    rsvOf (packWord opc p imm) = 0 := by
  rw [rsvOf_eq, packWord_toNat ho hp hi]; omega

theorem immOf_packWord {opc p imm : Nat} (ho : opc < 256) (hp : p < 2) (hi : imm < 2097152) :
    immOf (packWord opc p imm) = imm := by
  rw [immOf_eq, packWord_toNat ho hp hi]; omega

theorem policy_bit_lt (p : Policy) : p.bit < 2 := by cases p <;> decide

theorem policyOf_packWord (p : Policy) {opc imm : Nat} (ho : opc < 256) (hi : imm < 2097152) :
    policyOf (packWord opc p.bit imm) = p := by
  have hp := policy_bit_lt p
  rw [policyOf_eq, packWord_toNat ho hp hi,
    show (opc * 16777216 + p.bit * 8388608 + imm) / 8388608 % 2 = p.bit by omega]
  cases p <;> rfl

/-- The mask of formats IX and TN keeps everything but the immediate. -/
theorem packWord_and_high {opc p imm : Nat} (ho : opc < 256) (hp : p < 2) (hi : imm < 2097152) :
    packWord opc p imm &&& 0xFFE00000#32 = packWord opc p 0 := by
  have hm : ∀ w : BitVec 32, w &&& 0xFFE00000#32 = (w >>> 21) <<< 21 := by
    intro w
    ext b hb
    simp only [BitVec.getElem_and, BitVec.getElem_shiftLeft]
    interval_cases b <;> simp
  rw [hm]
  apply BitVec.eq_of_toNat_eq
  rw [BitVec.toNat_shiftLeft, BitVec.toNat_ushiftRight, packWord_toNat ho hp hi, packWord_toNat ho hp (by omega),
    Nat.shiftRight_eq_div_pow, Nat.shiftLeft_eq]
  norm_num; omega

end Sys2Proof
end

