-- ==== Sys2Proof/Laws/Memory.lean ====
section
/-! SUPPORT. The sample memory: reads after writes, the canonical form, and whole-memory reads. -/

namespace Sys2Proof.Machine

/-! ### One cell -/

@[simp] theorem read_nil (i : Nat) : Memory.read [] i = none := rfl

/-- A read of the cell just written gives the pair written. -/
@[simp] theorem read_write_same (m : Memory) (i : Nat) (x : Sample) :
    Memory.read (Memory.write m i x) i = some x := by
  induction m with
  | nil => simp [Memory.write, Memory.read]
  | cons e m ih =>
    obtain ⟨k, y⟩ := e
    unfold Memory.write
    split_ifs with h1 h2
    · simp [Memory.read]
    · simp [Memory.read]
    · simp [Memory.read, ih, Ne.symm h2]

/-- A write leaves every other cell alone. -/
theorem read_write_ne (m : Memory) {i j : Nat} (x : Sample) (h : j ≠ i) :
    Memory.read (Memory.write m i x) j = Memory.read m j := by
  induction m with
  | nil => simp [Memory.write, Memory.read, Ne.symm h]
  | cons e m ih =>
    obtain ⟨k, y⟩ := e
    unfold Memory.write
    split_ifs with h1 h2
    · simp [Memory.read, Ne.symm h]
    · subst h2; simp [Memory.read, Ne.symm h]
    · simp [Memory.read, ih]

/-! ### The canonical form -/

theorem risingFrom_mono {lo lo' : Nat} (h : lo' ≤ lo) :
    ∀ {m : Memory}, Memory.risingFrom lo m = true → Memory.risingFrom lo' m = true
  | [], _ => rfl
  | (k, _) :: m, hm => by
    simp only [Memory.risingFrom, Bool.and_eq_true, decide_eq_true_eq] at hm ⊢
    exact ⟨by omega, hm.2⟩

theorem risingFrom_write {lo i : Nat} (x : Sample) (hi : lo ≤ i) :
    ∀ {m : Memory}, Memory.risingFrom lo m = true → Memory.risingFrom lo (Memory.write m i x) = true := by
  intro m
  induction m generalizing lo with
  | nil => intro _; simp [Memory.write, Memory.risingFrom, hi]
  | cons e m ih =>
    obtain ⟨k, y⟩ := e
    intro hm
    simp only [Memory.risingFrom, Bool.and_eq_true, decide_eq_true_eq] at hm
    unfold Memory.write
    split_ifs with h1 h2
    · simp only [Memory.risingFrom, Bool.and_eq_true, decide_eq_true_eq]
      exact ⟨hi, by omega, hm.2⟩
    · subst h2; simp only [Memory.risingFrom, Bool.and_eq_true, decide_eq_true_eq]; exact ⟨hi, hm.2⟩
    · simp only [Memory.risingFrom, Bool.and_eq_true, decide_eq_true_eq]
      exact ⟨hm.1, ih (by omega) hm.2⟩

/-- A write keeps the canonical form. -/
theorem wf_write {m : Memory} (i : Nat) (x : Sample) (h : Memory.wf m = true) :
    Memory.wf (Memory.write m i x) = true := risingFrom_write x (Nat.zero_le i) h

theorem risingFrom_cellsFrom (xs : List Sample) : ∀ i, Memory.risingFrom i (Memory.cellsFrom i xs) = true := by
  induction xs with
  | nil => intro i; rfl
  | cons x xs ih => intro i; simp [Memory.cellsFrom, Memory.risingFrom, ih]

/-- The memory of a sequence of cells has the canonical form. -/
theorem wf_ofCells (xs : List Sample) : Memory.wf (Memory.ofCells xs) = true := risingFrom_cellsFrom xs 0

theorem wf_nil : Memory.wf [] = true := rfl

theorem read_none_of_rising {lo i : Nat} (h : i < lo) :
    ∀ {m : Memory}, Memory.risingFrom lo m = true → Memory.read m i = none
  | [], _ => rfl
  | (k, _) :: m, hm => by
    simp only [Memory.risingFrom, Bool.and_eq_true, decide_eq_true_eq] at hm
    simp only [Memory.read]
    rw [if_neg (by omega)]
    exact read_none_of_rising (by omega : i < k + 1) hm.2

/-- Memories in canonical form are equal when every cell reads the same. -/
theorem rising_ext {m m' : Memory} {lo : Nat} (h : Memory.risingFrom lo m = true)
    (h' : Memory.risingFrom lo m' = true) (hr : ∀ i, Memory.read m i = Memory.read m' i) : m = m' := by
  induction m generalizing m' lo with
  | nil =>
    cases m' with
    | nil => rfl
    | cons e t => obtain ⟨k, y⟩ := e; have := hr k; simp [Memory.read] at this
  | cons e t ih =>
    obtain ⟨k, y⟩ := e
    cases m' with
    | nil => have := hr k; simp [Memory.read] at this
    | cons e' t' =>
      obtain ⟨k', y'⟩ := e'
      simp only [Memory.risingFrom, Bool.and_eq_true, decide_eq_true_eq] at h h'
      have hkk : k = k' := by
        rcases Nat.lt_trichotomy k k' with hl | he | hl
        · have := hr k
          simp only [Memory.read, if_neg (show ¬ k' = k by omega)] at this
          rw [read_none_of_rising (by omega) h'.2] at this; simp at this
        · exact he
        · have := hr k'
          simp only [Memory.read, if_neg (show ¬ k = k' by omega)] at this
          rw [read_none_of_rising (by omega) h.2] at this; simp at this
      subst hkk
      have hy : y = y' := by have := hr k; simpa [Memory.read] using this
      subst hy
      congr 1
      apply ih h.2 h'.2
      intro i
      by_cases hi : k = i
      · subst hi
        rw [read_none_of_rising (by omega) h.2, read_none_of_rising (by omega) h'.2]
      · have := hr i; simpa [Memory.read, hi] using this

/-- Canonical memories that read alike are equal data. -/
theorem wf_ext {m m' : Memory} (h : Memory.wf m = true) (h' : Memory.wf m' = true)
    (hr : ∀ i, Memory.read m i = Memory.read m' i) : m = m' := rising_ext h h' hr

/-! ### All cells -/

theorem readFrom_length {m : Memory} : ∀ {count i : Nat} {xs : List Sample},
    Memory.readFrom m i count = some xs → xs.length = count := by
  intro count
  induction count with
  | zero => intro i xs h; simp [Memory.readFrom] at h; subst h; rfl
  | succ c ih =>
    intro i xs h
    unfold Memory.readFrom at h
    split at h
    · rename_i x ys hx hys
      injection h with h; subst h
      simp [ih hys]
    · simp at h

theorem readAll_length {m : Memory} {n : Nat} {xs : List Sample} (h : Memory.readAll m n = some xs) :
    xs.length = n := readFrom_length h

theorem readFrom_get {m : Memory} : ∀ {count i : Nat} {xs : List Sample},
    Memory.readFrom m i count = some xs → ∀ k, k < count → Memory.read m (i + k) = xs[k]? := by
  intro count
  induction count with
  | zero => intro i xs _ k hk; omega
  | succ c ih =>
    intro i xs h k hk
    unfold Memory.readFrom at h
    split at h
    · rename_i x ys hx hys
      injection h with h; subst h
      cases k with
      | zero => simpa using hx
      | succ k =>
        have := ih hys k (by omega)
        rw [show i + (k + 1) = i + 1 + k by omega, this]; simp
    · simp at h

/-- What `readAll` gives is what the cells read. -/
theorem readAll_get {m : Memory} {n : Nat} {xs : List Sample} (h : Memory.readAll m n = some xs)
    {k : Nat} (hk : k < n) : Memory.read m k = xs[k]? := by
  have := readFrom_get h k hk; simpa using this

theorem readFrom_isSome {m : Memory} : ∀ {count i : Nat},
    (∀ k, i ≤ k → k < i + count → (Memory.read m k).isSome = true) →
    (Memory.readFrom m i count).isSome = true := by
  intro count
  induction count with
  | zero => intro i _; rfl
  | succ c ih =>
    intro i h
    have h0 := h i (le_refl _) (by omega)
    have h1 := ih (i := i + 1) (fun k hk hk' => h k (by omega) (by omega))
    obtain ⟨x, hx⟩ := Option.isSome_iff_exists.mp h0
    obtain ⟨ys, hys⟩ := Option.isSome_iff_exists.mp h1
    simp [Memory.readFrom, hx, hys]

/-- Every cell holds a value exactly when the memory reads as a whole. -/
theorem readAll_isSome_iff (m : Memory) (n : Nat) :
    (Memory.readAll m n).isSome = true ↔ ∀ k, k < n → (Memory.read m k).isSome = true := by
  constructor
  · intro h k hk
    obtain ⟨xs, hxs⟩ := Option.isSome_iff_exists.mp h
    rw [readAll_get hxs hk, List.getElem?_eq_getElem (by rw [readAll_length hxs]; exact hk)]
    rfl
  · intro h; exact readFrom_isSome (fun k _ hk => h k (by omega))

theorem read_cellsFrom (xs : List Sample) : ∀ i k, Memory.read (Memory.cellsFrom i xs) (i + k) = xs[k]? := by
  induction xs with
  | nil => intro i k; rfl
  | cons x xs ih =>
    intro i k
    cases k with
    | zero => simp [Memory.cellsFrom, Memory.read]
    | succ k =>
      simp only [Memory.cellsFrom, Memory.read]
      rw [if_neg (by omega), show i + (k + 1) = i + 1 + k by omega, ih]; simp

/-- The memory of a sequence reads as the sequence. -/
theorem read_ofCells (xs : List Sample) (k : Nat) : Memory.read (Memory.ofCells xs) k = xs[k]? := by
  have := read_cellsFrom xs 0 k; simpa [Memory.ofCells] using this

theorem readFrom_ofCells (xs : List Sample) :
    ∀ count i, i + count ≤ xs.length → Memory.readFrom (Memory.ofCells xs) i count = some ((xs.drop i).take count) := by
  intro count
  induction count with
  | zero => intro i _; simp [Memory.readFrom]
  | succ c ih =>
    intro i h
    have hi : i < xs.length := by omega
    unfold Memory.readFrom
    rw [read_ofCells, ih (i + 1) (by omega), List.getElem?_eq_getElem hi]
    simp only [Option.some.injEq]
    rw [List.drop_eq_getElem_cons hi, List.take_succ_cons]

/-- The cells of a memory made from `n` cells are those cells. -/
theorem readAll_ofCells {xs : List Sample} {n : Nat} (h : xs.length = n) :
    Memory.readAll (Memory.ofCells xs) n = some xs := by
  subst h
  unfold Memory.readAll
  rw [readFrom_ofCells xs _ 0 (by omega)]; simp

/-- A canonical memory within `N` cells that reads as a whole is the memory of its cells. -/
theorem ofCells_readAll {c : Cfg} {m : Memory} {xs : List Sample} (hw : Memory.wf m = true)
    (hf : Memory.fits c m = true) (h : Memory.readAll m c.n = some xs) : Memory.ofCells xs = m := by
  apply wf_ext (wf_ofCells xs) hw
  intro i
  rw [read_ofCells]
  by_cases hi : i < c.n
  · exact (readAll_get h hi).symm
  · rw [List.getElem?_eq_none (by rw [readAll_length h]; omega)]
    have hnone : ∀ (m : Memory), Memory.fits c m = true → Memory.read m i = none := by
      intro m
      induction m with
      | nil => intro _; rfl
      | cons e m ih =>
        obtain ⟨k, y⟩ := e
        intro hm
        simp only [Memory.fits, List.all_cons, Bool.and_eq_true, decide_eq_true_eq] at hm
        simp only [Memory.read]
        rw [if_neg (by omega)]
        exact ih hm.2
    exact (hnone m hf).symm

/-! ### Raw values in the `N` cells -/

theorem fits_write {c : Cfg} {m : Memory} {i : Nat} {x : Sample} (hm : Memory.fits c m = true)
    (hi : i < c.n) (hx : c.sampleOk x = true) : Memory.fits c (Memory.write m i x) = true := by
  induction m with
  | nil => simp [Memory.write, Memory.fits, hi, hx]
  | cons e m ih =>
    obtain ⟨k, y⟩ := e
    simp only [Memory.fits, List.all_cons, Bool.and_eq_true, decide_eq_true_eq] at hm
    have hmm : Memory.fits c m = true := hm.2
    unfold Memory.write
    split_ifs
    · simp only [Memory.fits, List.all_cons, Bool.and_eq_true, decide_eq_true_eq]; exact ⟨⟨hi, hx⟩, hm⟩
    · simp only [Memory.fits, List.all_cons, Bool.and_eq_true, decide_eq_true_eq]; exact ⟨⟨hi, hx⟩, hm.2⟩
    · simp only [Memory.fits, List.all_cons, Bool.and_eq_true, decide_eq_true_eq]; exact ⟨hm.1, ih hmm⟩

theorem fits_cellsFrom {c : Cfg} {xs : List Sample} (h : xs.all c.sampleOk = true) :
    ∀ i, i + xs.length ≤ c.n → Memory.fits c (Memory.cellsFrom i xs) = true := by
  induction xs with
  | nil => intro i _; rfl
  | cons x xs ih =>
    intro i hi
    simp only [List.all_cons, Bool.and_eq_true] at h
    simp only [List.length_cons] at hi
    simp only [Memory.cellsFrom, Memory.fits, List.all_cons, Bool.and_eq_true, decide_eq_true_eq]
    exact ⟨⟨by omega, h.1⟩, ih h.2 (i + 1) (by omega)⟩

theorem fits_ofCells {c : Cfg} {xs : List Sample} (h : xs.all c.sampleOk = true) (hl : xs.length = c.n) :
    Memory.fits c (Memory.ofCells xs) = true := fits_cellsFrom h 0 (by omega)

theorem sampleOk_of_read {c : Cfg} {m : Memory} {i : Nat} {x : Sample} (hm : Memory.fits c m = true)
    (h : Memory.read m i = some x) : c.sampleOk x = true := by
  induction m with
  | nil => simp at h
  | cons e m ih =>
    obtain ⟨k, y⟩ := e
    simp only [Memory.fits, List.all_cons, Bool.and_eq_true, decide_eq_true_eq] at hm
    simp only [Memory.read] at h
    split_ifs at h with hk
    · injection h with h; subst h; exact hm.1.2
    · exact ih hm.2 h

theorem all_ok_of_readAll {c : Cfg} {m : Memory} {n : Nat} {xs : List Sample} (hm : Memory.fits c m = true)
    (h : Memory.readAll m n = some xs) : xs.all c.sampleOk = true := by
  rw [List.all_eq_true]
  intro x hx
  obtain ⟨k, hk, rfl⟩ := List.mem_iff_getElem.mp hx
  refine sampleOk_of_read hm (i := k) ?_
  rw [readAll_get h (by rw [readAll_length h] at hk; exact hk), List.getElem?_eq_getElem hk]

end Sys2Proof.Machine
end

