-- ==== Sys2Proof/Laws/State.lean ====
section
/-! SUPPORT. What each update of the state does to each field: one lemma per field per update. -/

namespace Sys2Proof.Machine

@[simp] theorem respond_cfg (s : State) (a b : Int) : (s.respond a b).cfg = s.cfg := rfl
@[simp] theorem respond_xmem (s : State) (a b : Int) : (s.respond a b).xmem = s.xmem := rfl
@[simp] theorem respond_port (s : State) (a b : Int) : (s.respond a b).port = s.port := rfl
@[simp] theorem respond_inputs (s : State) (a b : Int) : (s.respond a b).inputs = s.inputs := rfl
@[simp] theorem respond_rsp (s : State) (a b : Int) :
    (s.respond a b).rsp = some ⟨.ok, toWord s.cfg.w a, toWord s.cfg.w b⟩ := rfl

@[simp] theorem raise_cfg (s : State) (e : ErrCode) : (s.raise e).cfg = s.cfg := rfl
@[simp] theorem raise_xmem (s : State) (e : ErrCode) : (s.raise e).xmem = s.xmem := rfl
@[simp] theorem raise_port (s : State) (e : ErrCode) : (s.raise e).port = s.port := rfl
@[simp] theorem raise_inputs (s : State) (e : ErrCode) : (s.raise e).inputs = s.inputs := rfl
@[simp] theorem raise_rsp (s : State) (e : ErrCode) : (s.raise e).rsp = some ⟨e, 0, 0⟩ := rfl

@[simp] theorem withXmem_cfg (s : State) (m : Memory) : (s.withXmem m).cfg = s.cfg := rfl
@[simp] theorem withXmem_xmem (s : State) (m : Memory) : (s.withXmem m).xmem = m := rfl
@[simp] theorem withXmem_port (s : State) (m : Memory) : (s.withXmem m).port = s.port := rfl
@[simp] theorem withXmem_inputs (s : State) (m : Memory) : (s.withXmem m).inputs = s.inputs := rfl
@[simp] theorem withXmem_rsp (s : State) (m : Memory) : (s.withXmem m).rsp = s.rsp := rfl

@[simp] theorem applyReset_cfg (s : State) : s.applyReset.cfg = s.cfg := rfl
@[simp] theorem applyReset_xmem (s : State) : s.applyReset.xmem = [] := rfl
@[simp] theorem applyReset_port (s : State) : s.applyReset.port = s.port := rfl
@[simp] theorem applyReset_inputs (s : State) : s.applyReset.inputs = s.inputs := rfl
@[simp] theorem applyReset_rsp (s : State) : s.applyReset.rsp = none := rfl

@[simp] theorem idleSlot_cfg (s : State) : s.idleSlot.cfg = s.cfg := rfl
@[simp] theorem idleSlot_xmem (s : State) : s.idleSlot.xmem = s.xmem := rfl
@[simp] theorem idleSlot_port (s : State) : s.idleSlot.port = s.port := rfl
@[simp] theorem idleSlot_inputs (s : State) : s.idleSlot.inputs = s.inputs := rfl
@[simp] theorem idleSlot_rsp (s : State) : s.idleSlot.rsp = none := rfl

@[simp] theorem advance_cfg (s : State) : s.advance.cfg = s.cfg := by unfold State.advance; split <;> rfl
@[simp] theorem advance_xmem (s : State) : s.advance.xmem = s.xmem := by unfold State.advance; split <;> rfl
@[simp] theorem advance_rsp (s : State) : s.advance.rsp = s.rsp := by unfold State.advance; split <;> rfl

theorem advance_port (s : State) : s.advance.port = s.inputs.headD Port.idle := by
  unfold State.advance; split <;> simp_all

theorem advance_inputs (s : State) : s.advance.inputs = s.inputs.tail := by
  unfold State.advance; split <;> simp_all

@[simp] theorem offerWord_cfg (s : State) (w : BitVec 32) : (offerWord s w).cfg = s.cfg := rfl
@[simp] theorem offerWord_xmem (s : State) (w : BitVec 32) : (offerWord s w).xmem = s.xmem := rfl
@[simp] theorem offerWord_inputs (s : State) (w : BitVec 32) : (offerWord s w).inputs = s.inputs := rfl
@[simp] theorem offerWord_rsp (s : State) (w : BitVec 32) : (offerWord s w).rsp = s.rsp := rfl
@[simp] theorem offerWord_cmdWord (s : State) (w : BitVec 32) : (offerWord s w).port.cmdWord = w := rfl
@[simp] theorem offerWord_cmdOpa (s : State) (w : BitVec 32) :
    (offerWord s w).port.cmdOpa = s.port.cmdOpa := rfl
@[simp] theorem offerWord_cmdOpb (s : State) (w : BitVec 32) :
    (offerWord s w).port.cmdOpb = s.port.cmdOpb := rfl
@[simp] theorem offerWord_accepts (s : State) (w : BitVec 32) : (offerWord s w).port.accepts = true := rfl

@[simp] theorem afterReset_cfg (c : Cfg) : (State.afterReset c).cfg = c := rfl
@[simp] theorem afterReset_xmem (c : Cfg) : (State.afterReset c).xmem = [] := rfl
@[simp] theorem afterReset_port (c : Cfg) : (State.afterReset c).port = Port.idle := rfl
@[simp] theorem afterReset_inputs (c : Cfg) : (State.afterReset c).inputs = [] := rfl
@[simp] theorem afterReset_rsp (c : Cfg) : (State.afterReset c).rsp = none := rfl

end Sys2Proof.Machine
end

