-- ==== Sys2Proof/Laws/Exec.lean ====
section
/-! SUPPORT. What a command can do, said once: answers as responses, the shared transform operation, and
the case lemmas of `exec`, `slot` and `step`. -/

namespace Sys2Proof.Machine

/-! ### Answers -/

/-- A response with results in range answers with those results. -/
theorem answered_respond (s : State) (m : Memory) {a b : Int} (ha : s.cfg.inRange a = true)
    (hb : s.cfg.inRange b = true) : Answered s ((s.withXmem m).respond a b) m .ok a b :=
  ⟨rfl, rfl, rfl, rfl, _, rfl, rfl, toWord_lt s.cfg a, toWord_lt s.cfg b, sintW_toWord s.cfg ha,
    sintW_toWord s.cfg hb⟩

/-- The same without a change of the sample memory. -/
theorem answered_respond_same (s : State) {a b : Int} (ha : s.cfg.inRange a = true)
    (hb : s.cfg.inRange b = true) : Answered s (s.respond a b) s.xmem .ok a b :=
  answered_respond s s.xmem ha hb

/-- Error delivery answers with the code and two zeros, and changes nothing else (R306). -/
theorem answered_raise (s : State) (e : ErrCode) : Answered s (s.raise e) s.xmem e 0 0 :=
  ⟨rfl, rfl, rfl, rfl, _, rfl, rfl, Nat.two_pow_pos _, Nat.two_pow_pos _, sintW_zero s.cfg, sintW_zero s.cfg⟩

/-! ### The transform operation -/

theorem transform_of_readAll (s : State) (f : List Sample → List Sample) {xs : List Sample}
    (h : Memory.readAll s.xmem s.cfg.n = some xs) :
    s.transform f = .next ((s.withXmem (Memory.ofCells (f xs))).respond 0 0) := by
  simp [State.transform, h]

theorem transform_of_none (s : State) (f : List Sample → List Sample)
    (h : Memory.readAll s.xmem s.cfg.n = none) : s.transform f = .fault .unwrittenCell := by
  simp [State.transform, h]

theorem readAll_of_allWritten {s : State} (h : s.allWritten = true) :
    Memory.readAll s.xmem s.cfg.n = some s.cells := by
  obtain ⟨xs, hxs⟩ := Option.isSome_iff_exists.mp h
  simp [State.cells, hxs]

theorem readAll_of_not_allWritten {s : State} (h : s.allWritten = false) :
    Memory.readAll s.xmem s.cfg.n = none := by
  simpa [State.allWritten] using h

/-- A transform of a memory that is all written. -/
theorem transform_next (s : State) (f : List Sample → List Sample) (h : s.allWritten = true) :
    s.transform f = .next ((s.withXmem (Memory.ofCells (f s.cells))).respond 0 0) :=
  transform_of_readAll s f (readAll_of_allWritten h)

/-- What a transform that answers a next state has done. -/
theorem transform_cases {s t : State} {f : List Sample → List Sample} (h : s.transform f = .next t) :
    ∃ xs, Memory.readAll s.xmem s.cfg.n = some xs ∧
      t = (s.withXmem (Memory.ofCells (f xs))).respond 0 0 := by
  unfold State.transform at h
  split at h
  · cases h
  · rename_i xs hxs; injection h with h; exact ⟨xs, hxs, h.symm⟩

/-! ### Cases of exec -/

/-- The errors a command can raise (R300, R311). -/
def MayRaise : Instr → ErrCode → Prop
  | .div _, e => e = .divByZero
  | .rdtw _, e => e = .badIndex
  | .wrx _, e => e = .badIndex
  | .rdx _, e => e = .badIndex
  | .bitrev _, e => e = .sizeMismatch
  | .fftFwd _ _, e => e = .sizeMismatch
  | .fftInv _ _, e => e = .sizeMismatch ∨ e = .divByZero
  | _, _ => False

/-- The function a transform command applies to the cells. -/
def transformOf (c : Cfg) : Instr → List Sample → Option (List Sample)
  | .bitrev _, xs => some (perm c xs)
  | .fftFwd p _, xs => some (forward c p xs)
  | .fftInv p _, xs => some (inverse c p xs)
  | _, _ => none

/-- Everything a command that answers a next state can have done: it raised one of its errors; it
responded, changing nothing else; it wrote one cell in range; or it transformed all cells. -/
theorem exec_cases {i : Instr} {s t : State} (h : exec i s = .next t) :
    (∃ e, MayRaise i e ∧ t = s.raise e) ∨
    (∃ a b, t = s.respond a b) ∨
    (∃ k, i = .wrx k ∧ k < s.cfg.n ∧
      t = (s.withXmem (Memory.write s.xmem k ⟨s.opA, s.opB⟩)).respond 0 0) ∨
    (∃ xs ys, Memory.readAll s.xmem s.cfg.n = some xs ∧ transformOf s.cfg i xs = some ys ∧
      t = (s.withXmem (Memory.ofCells ys)).respond 0 0) := by
  cases i with
  | add p => injection h with h; exact .inr (.inl ⟨_, _, h.symm⟩)
  | sub p => injection h with h; exact .inr (.inl ⟨_, _, h.symm⟩)
  | mul p => injection h with h; exact .inr (.inl ⟨_, _, h.symm⟩)
  | div p =>
    simp only [exec, execDiv, aluDiv] at h
    split at h
    · rename_i e he
      split_ifs at he
      injection he with he; injection h with h
      exact .inl ⟨e, he.symm, h.symm⟩
    · injection h with h; exact .inr (.inl ⟨_, _, h.symm⟩)
  | cmpeq => injection h with h; exact .inr (.inl ⟨_, _, h.symm⟩)
  | cmpne => injection h with h; exact .inr (.inl ⟨_, _, h.symm⟩)
  | cmplt => injection h with h; exact .inr (.inl ⟨_, _, h.symm⟩)
  | cmple => injection h with h; exact .inr (.inl ⟨_, _, h.symm⟩)
  | cmpgt => injection h with h; exact .inr (.inl ⟨_, _, h.symm⟩)
  | cmpge => injection h with h; exact .inr (.inl ⟨_, _, h.symm⟩)
  | fromint => injection h with h; exact .inr (.inl ⟨_, _, h.symm⟩)
  | toint => injection h with h; exact .inr (.inl ⟨_, _, h.symm⟩)
  | fromraw => injection h with h; exact .inr (.inl ⟨_, _, h.symm⟩)
  | rdtw k =>
    simp only [exec, execRdtw] at h
    split_ifs at h <;> injection h with h
    · exact .inr (.inl ⟨_, _, h.symm⟩)
    · exact .inl ⟨_, rfl, h.symm⟩
  | wrx k =>
    simp only [exec, execWrx] at h
    split_ifs at h with hk <;> injection h with h
    · exact .inr (.inr (.inl ⟨k, rfl, by simpa [State.indexOk] using hk, h.symm⟩))
    · exact .inl ⟨_, rfl, h.symm⟩
  | rdx k =>
    simp only [exec, execRdx] at h
    split_ifs at h
    · split at h
      · injection h with h; exact .inr (.inl ⟨_, _, h.symm⟩)
      · cases h
    · injection h with h; exact .inl ⟨_, rfl, h.symm⟩
  | bitrev k =>
    simp only [exec, execBitrev] at h
    split_ifs at h
    · obtain ⟨xs, hx, ht⟩ := transform_cases h
      exact .inr (.inr (.inr ⟨xs, _, hx, rfl, ht⟩))
    · injection h with h; exact .inl ⟨_, rfl, h.symm⟩
  | fftFwd p k =>
    simp only [exec, execFftFwd] at h
    split_ifs at h
    · obtain ⟨xs, hx, ht⟩ := transform_cases h
      exact .inr (.inr (.inr ⟨xs, _, hx, rfl, ht⟩))
    · injection h with h; exact .inl ⟨_, rfl, h.symm⟩
  | fftInv p k =>
    simp only [exec, execFftInv] at h
    split_ifs at h
    · injection h with h; exact .inl ⟨_, .inr rfl, h.symm⟩
    · obtain ⟨xs, hx, ht⟩ := transform_cases h
      exact .inr (.inr (.inr ⟨xs, _, hx, rfl, ht⟩))
    · injection h with h; exact .inl ⟨_, .inl rfl, h.symm⟩

/-- A command stops only by the fault of an unwritten cell, and only when some cell is unwritten. -/
theorem exec_stops {i : Instr} {s : State} :
    (∃ t, exec i s = .next t) ∨ (exec i s = .fault .unwrittenCell ∧ s.allWritten = false) := by
  have tr : ∀ f, (∃ t, s.transform f = .next t) ∨
      (s.transform f = .fault .unwrittenCell ∧ s.allWritten = false) := by
    intro f
    cases ha : s.allWritten with
    | true => exact .inl ⟨_, transform_next s f ha⟩
    | false => exact .inr ⟨transform_of_none s f (readAll_of_not_allWritten ha), rfl⟩
  cases i with
  | div p =>
    simp only [exec, execDiv]
    split <;> exact .inl ⟨_, rfl⟩
  | rdtw k => simp only [exec, execRdtw]; split_ifs <;> exact .inl ⟨_, rfl⟩
  | wrx k => simp only [exec, execWrx]; split_ifs <;> exact .inl ⟨_, rfl⟩
  | rdx k =>
    simp only [exec, execRdx]
    split_ifs with hk
    · split
      · exact .inl ⟨_, rfl⟩
      · rename_i hr
        refine .inr ⟨rfl, ?_⟩
        cases ha : s.allWritten with
        | false => rfl
        | true =>
          have := (readAll_isSome_iff s.xmem s.cfg.n).mp ha k (by simpa [State.indexOk] using hk)
          simp [hr] at this
    · exact .inl ⟨_, rfl⟩
  | bitrev k =>
    simp only [exec, execBitrev]; split_ifs
    · exact tr _
    · exact .inl ⟨_, rfl⟩
  | fftFwd p k =>
    simp only [exec, execFftFwd]; split_ifs
    · exact tr _
    · exact .inl ⟨_, rfl⟩
  | fftInv p k =>
    simp only [exec, execFftInv]; split_ifs
    · exact .inl ⟨_, rfl⟩
    · exact tr _
    · exact .inl ⟨_, rfl⟩
  | _ => exact .inl ⟨_, rfl⟩

/-! ### Cases of a slot and of a step -/

/-- A slot that accepts a command runs it. -/
theorem slot_of_accepts {s : State} (h : s.port.accepts = true) : slot s = runCommand s := by
  simp only [Port.accepts, Bool.and_eq_true, Bool.not_eq_true'] at h
  simp [slot, h.1.1, h.1.2, h.2]

/-- A slot that accepts no command resets or idles. -/
theorem slot_of_not_accepts {s : State} (h : s.port.accepts = false) :
    slot s = .next s.applyReset ∨ slot s = .next s.idleSlot := by
  unfold slot
  split_ifs with h1 h2 h3
  · exact .inl rfl
  · exact .inl rfl
  · simp [Port.accepts, h1, h2, h3] at h
  · exact .inr rfl

/-- A step that answers a next state is a slot that does, and then the next slot at the port. -/
theorem step_next {s t : State} (h : step s = .next t) : ∃ u, slot s = .next u ∧ t = u.advance := by
  unfold step thenAdvance at h
  split at h
  · rename_i u hu; injection h with h; exact ⟨u, hu, h.symm⟩
  · cases h
  · cases h

/-- Everything a step that answers a next state can have done. -/
theorem step_cases {s t : State} (h : step s = .next t) :
    (s.port.accepts = false ∧ (t = s.applyReset.advance ∨ t = s.idleSlot.advance)) ∨
    (s.port.accepts = true ∧ (∃ e, decode s.port.cmdWord = .error e) ∧
      t = (s.raise .illegalCommand).advance) ∨
    (s.port.accepts = true ∧ ∃ i u, decode s.port.cmdWord = .ok i ∧ exec i s = .next u ∧ t = u.advance) := by
  obtain ⟨u, hu, rfl⟩ := step_next h
  cases ha : s.port.accepts with
  | false =>
    rcases slot_of_not_accepts ha with h' | h' <;> rw [h'] at hu <;> injection hu with hu <;> subst hu
    · exact .inl ⟨rfl, .inl rfl⟩
    · exact .inl ⟨rfl, .inr rfl⟩
  | true =>
    rw [slot_of_accepts ha] at hu
    unfold runCommand at hu
    split at hu
    · rename_i i hi; exact .inr (.inr ⟨rfl, i, u, hi, hu, rfl⟩)
    · rename_i e he; injection hu with hu; exact .inr (.inl ⟨rfl, ⟨e, he⟩, by rw [hu]⟩)

end Sys2Proof.Machine
end

