-- ==== Sys2Proof/Laws/Loops.lean ====
section
/-! SUPPORT. The loops of BREV and FFTCORE: they keep the number of cells and the form of every cell, and
one block does exactly the butterflies of its own pairs. -/

namespace Sys2Proof

variable {α β : Type}

/-! ### Loops -/

/-- What every turn of a loop keeps, the loop keeps. -/
theorem foldl_keeps (P : β → Prop) (f : β → α → β) (hf : ∀ b a, P b → P (f b a)) :
    ∀ (l : List α) (b : β), P b → P (l.foldl f b)
  | [], _, h => h
  | a :: l, b, h => foldl_keeps P f hf l (f b a) (hf b a h)

/-- A loop over `0 .. m` is the loop over `0 .. m-1` and one turn more. -/
theorem foldl_range_succ (f : β → Nat → β) (b : β) (m : Nat) :
    (List.range (m + 1)).foldl f b = f ((List.range m).foldl f b) m := by
  rw [List.range_succ, List.foldl_append]; rfl

/-! ### Cells -/

/-- Reading a cell after writing one. -/
theorem getD_set (xs : List α) (i k : Nat) (a z : α) (hi : i < xs.length) :
    (xs.set i a).getD k z = if i = k then a else xs.getD k z := by
  simp only [List.getD_eq_getElem?_getD, List.getElem?_set]
  by_cases h : i = k
  · subst h; simp [hi]
  · simp [h]

/-- Cells agree when they read alike. -/
theorem ext_getD {xs ys : List α} (z : α) (hl : xs.length = ys.length)
    (h : ∀ k, k < xs.length → xs.getD k z = ys.getD k z) : xs = ys := by
  apply List.ext_getElem hl
  intro k hk hk'
  have := h k hk
  simpa [List.getD_eq_getElem?_getD, List.getElem?_eq_getElem hk, List.getElem?_eq_getElem hk'] using this

/-- A cell of a list is among its elements or is the default. -/
theorem getD_mem_or (xs : List α) (k : Nat) (z : α) : xs.getD k z ∈ xs ∨ xs.getD k z = z := by
  rw [List.getD_eq_getElem?_getD]
  rcases lt_or_ge k xs.length with h | h
  · left; rw [List.getElem?_eq_getElem h]; simp
  · right; rw [List.getElem?_eq_none h]; rfl

/-! ### The number of cells -/

theorem length_swapCells (z : α) (xs : List α) (i j : Nat) : (swapCells z xs i j).length = xs.length := by
  simp [swapCells]

theorem length_permStep (z : α) (levels : Nat) (xs : List α) (i : Nat) :
    (permStep z levels xs i).length = xs.length := by
  unfold permStep; split_ifs <;> simp [length_swapCells]

theorem length_permCells (z : α) (levels n : Nat) (xs : List α) :
    (permCells z levels n xs).length = xs.length :=
  foldl_keeps (fun ys : List α => ys.length = xs.length) _
    (fun ys i h => by rw [length_permStep, h]) _ _ rfl

theorem length_butterflyAt (z : α) (tw : Nat → α) (bf : α → α → α → α × α) (half stride i : Nat)
    (xs : List α) (j : Nat) : (butterflyAt z tw bf half stride i xs j).length = xs.length := by
  simp [butterflyAt]

theorem length_blockPass (z : α) (tw : Nat → α) (bf : α → α → α → α × α) (half stride : Nat)
    (xs : List α) (i : Nat) : (blockPass z tw bf half stride xs i).length = xs.length :=
  foldl_keeps (fun ys : List α => ys.length = xs.length) _
    (fun ys j h => by rw [length_butterflyAt, h]) _ _ rfl

theorem length_stagePass (z : α) (tw : Nat → α) (bf : α → α → α → α × α) (n half : Nat) (xs : List α) :
    (stagePass z tw bf n half xs).length = xs.length :=
  foldl_keeps (fun ys : List α => ys.length = xs.length) _
    (fun ys q h => by rw [length_blockPass, h]) _ _ rfl

theorem length_forwardCells (z : α) (tw : Nat → α) (bf : α → α → α → α × α) (levels n : Nat)
    (xs : List α) : (forwardCells z tw bf levels n xs).length = xs.length :=
  foldl_keeps (fun ys : List α => ys.length = xs.length) _
    (fun ys t h => by rw [length_stagePass, h]) _ _ (length_permCells z levels n xs)

@[simp] theorem length_perm (c : Cfg) (xs : List Sample) : (perm c xs).length = xs.length :=
  length_permCells _ _ _ _

@[simp] theorem length_forward (c : Cfg) (p : Policy) (xs : List Sample) :
    (forward c p xs).length = xs.length := length_forwardCells _ _ _ _ _ _

@[simp] theorem length_inverse (c : Cfg) (p : Policy) (xs : List Sample) :
    (inverse c p xs).length = xs.length := by simp [inverse]

/-! ### The form of every cell -/

/-- A property of the default and of what a butterfly writes, kept by writing it. -/
theorem all_set (P : α → Prop) {xs : List α} (h : ∀ x ∈ xs, P x) (i : Nat) {a : α} (ha : P a) :
    ∀ x ∈ xs.set i a, P x := by
  intro x hx
  rcases List.mem_or_eq_of_mem_set hx with h' | h'
  · exact h x h'
  · exact h' ▸ ha

theorem all_getD (P : α → Prop) {xs : List α} (h : ∀ x ∈ xs, P x) {z : α} (hz : P z) (k : Nat) :
    P (xs.getD k z) := by
  rcases getD_mem_or xs k z with h' | h'
  · exact h _ h'
  · rw [h']; exact hz

theorem all_permCells (P : α → Prop) {z : α} (hz : P z) (levels n : Nat) {xs : List α}
    (h : ∀ x ∈ xs, P x) : ∀ x ∈ permCells z levels n xs, P x := by
  refine foldl_keeps (fun ys => ∀ x ∈ ys, P x) _ (fun ys i hys => ?_) _ _ h
  unfold permStep swapCells
  split_ifs
  · exact all_set P (all_set P hys _ (all_getD P hys hz _)) _ (all_getD P hys hz _)
  · exact hys

theorem all_forwardCells (P : α → Prop) {z : α} (hz : P z) (tw : Nat → α) (bf : α → α → α → α × α)
    (hbf : ∀ u x w, P (bf u x w).1 ∧ P (bf u x w).2) (levels n : Nat) {xs : List α}
    (h : ∀ x ∈ xs, P x) : ∀ x ∈ forwardCells z tw bf levels n xs, P x := by
  refine foldl_keeps (fun ys => ∀ x ∈ ys, P x) _ (fun ys t hys => ?_) _ _ (all_permCells P hz levels n h)
  refine foldl_keeps (fun ys => ∀ x ∈ ys, P x) _ (fun ys q hys => ?_) _ _ hys
  refine foldl_keeps (fun ys => ∀ x ∈ ys, P x) _ (fun ys j hys => ?_) _ _ hys
  exact all_set P (all_set P hys _ (hbf _ _ _).1) _ (hbf _ _ _).2

theorem all_ok_iff (c : Cfg) (xs : List Sample) :
    xs.all c.sampleOk = true ↔ ∀ x ∈ xs, c.sampleOk x = true := List.all_eq_true

theorem zero_ok (c : Cfg) : c.sampleOk Sample.zero = true := by
  simp [c.sampleOk_iff, c.zero_inRange]

/-- The permutation moves raw values and makes none. -/
theorem perm_ok (c : Cfg) {xs : List Sample} (h : xs.all c.sampleOk = true) :
    (perm c xs).all c.sampleOk = true :=
  (all_ok_iff c _).mpr (all_permCells (fun x => c.sampleOk x = true) (zero_ok c) _ _ ((all_ok_iff c _).mp h))

/-- Every value a transform leaves is a raw value. -/
theorem forward_ok (c : Cfg) (p : Policy) {xs : List Sample} (h : xs.all c.sampleOk = true) :
    (forward c p xs).all c.sampleOk = true :=
  (all_ok_iff c _).mpr
    (all_forwardCells (fun x => c.sampleOk x = true) (zero_ok c) _ _ (fun u x w => bfly_ok c p u x w) _ _ ((all_ok_iff c _).mp h))

theorem inverse_ok (c : Cfg) (p : Policy) (xs : List Sample) :
    (inverse c p xs).all c.sampleOk = true := by
  rw [all_ok_iff]
  intro x hx
  obtain ⟨y, _, rfl⟩ := List.mem_map.mp hx
  exact scale_ok c p y

/-! ### Bit reversal -/

theorem brev_lt (levels : Nat) : ∀ i, brev levels i < 2 ^ levels := by
  induction levels with
  | zero => intro i; simp [brev]
  | succ l ih =>
    intro i
    have h := ih (i / 2)
    have h2 : i % 2 < 2 := Nat.mod_lt _ (by omega)
    have : i % 2 * 2 ^ l ≤ 1 * 2 ^ l := Nat.mul_le_mul_right _ (by omega)
    simp only [brev, pow_succ]; omega

/-- Bits of an even and of an odd index. -/
theorem brev_even (levels m : Nat) : brev (levels + 1) (2 * m) = brev levels m := by simp [brev]

theorem brev_odd (levels m : Nat) : brev (levels + 1) (2 * m + 1) = 2 ^ levels + brev levels m := by
  have : (2 * m + 1) / 2 = m := by omega
  simp [brev, this]

/-! ### One block -/

/-- After `m` turns of the block at `i`, the cells of the first `m` pairs hold the butterflies of what they
held before, and every other cell is as before. -/
theorem block_turns (z : α) (tw : Nat → α) (bf : α → α → α → α × α) (half stride i : Nat) (xs : List α)
    (hi : i + 2 * half ≤ xs.length) : ∀ m, m ≤ half → ∀ k,
    ((List.range m).foldl (butterflyAt z tw bf half stride i) xs).getD k z =
      if i ≤ k ∧ k < i + m then
        (bf (xs.getD k z) (xs.getD (k + half) z) (tw ((k - i) * stride))).1
      else if i + half ≤ k ∧ k < i + half + m then
        (bf (xs.getD (k - half) z) (xs.getD k z) (tw ((k - half - i) * stride))).2
      else xs.getD k z := by
  intro m
  induction m with
  | zero => intro _ k; simp only [List.range_zero, List.foldl_nil]; rw [if_neg (by omega), if_neg (by omega)]
  | succ m ih =>
    intro hm k
    have ih := ih (by omega)
    have hlen : ((List.range m).foldl (butterflyAt z tw bf half stride i) xs).length = xs.length :=
      foldl_keeps (fun ys : List α => ys.length = xs.length) _ (fun ys j h => by rw [length_butterflyAt, h]) _ _ rfl
    rw [foldl_range_succ]
    generalize hys : (List.range m).foldl (butterflyAt z tw bf half stride i) xs = ys at ih hlen
    have hu : ys.getD (i + m) z = xs.getD (i + m) z := by
      rw [ih, if_neg (by omega), if_neg (by omega)]
    have hx : ys.getD (i + m + half) z = xs.getD (i + m + half) z := by
      rw [ih, if_neg (by omega), if_neg (by omega)]
    unfold butterflyAt
    rw [getD_set _ _ _ _ _ (by rw [List.length_set]; omega), getD_set _ _ _ _ _ (by omega), hu, hx, ih]
    by_cases h1 : i + m + half = k
    · subst h1
      rw [if_pos rfl, if_neg (by omega), if_pos (by omega)]
      rw [show i + m + half - half = i + m by omega, show i + m - i = m by omega]
    · rw [if_neg h1]
      by_cases h2 : i + m = k
      · subst h2
        rw [if_pos rfl, if_pos (by omega), show i + m - i = m by omega]
      · rw [if_neg h2]
        congr 1
        · exact propext ⟨fun h => ⟨h.1, by omega⟩, fun h => ⟨h.1, by omega⟩⟩
        · congr 1
          exact propext ⟨fun h => ⟨h.1, by omega⟩, fun h => ⟨h.1, by omega⟩⟩

end Sys2Proof
end

