-- ==== Sys2Proof/Laws/PerInstr.lean ====
section
/-! SUPPORT. Statements per command, about the command as syntax. -/

namespace Sys2Proof.Laws.OpcodeRow

/-- The encoding of a well-formed command selects the command's own row of the opcode table (R62,
R65). -/
def Statement (i : Instr) : Prop :=
  i.wellFormed = true → ∃ r ∈ opcodeTable, r.mnemonic = i.mnemonic ∧ r.selects (encode i) = true

/-! ### By format -/

/-- Formats IX and TN: a row whose mask clears the immediate. -/
theorem of_ix {i : Instr} {opc k : Nat} (r : OpcodeRow) (hr : r ∈ opcodeTable) (hm : r.mnemonic = i.mnemonic)
    (hi : i.imm? = some k) (he : encode i = packWord opc 0 k) (ho : opc < 256)
    (hmask : r.mask = 0xFFE00000#32) (hp : packWord opc 0 0 = r.pattern) : Statement i := by
  intro hw
  have hk : k < 2097152 := by simpa [Instr.wellFormed, hi] using hw
  refine ⟨r, hr, hm, ?_⟩
  rw [OpcodeRow.selects, he, hmask, packWord_and_high ho (by omega) hk, hp, decide_eq_true rfl]

/-- Format TP: the mask clears the policy bit and the immediate. -/
theorem of_tp {i : Instr} {opc k : Nat} (p : Policy) (r : OpcodeRow) (hr : r ∈ opcodeTable)
    (hm : r.mnemonic = i.mnemonic) (hi : i.imm? = some k) (he : encode i = packWord opc p.bit k)
    (ho : opc < 256) (hmask : r.mask = 0xFFE00000#32 &&& 0xFF7FFFFF)
    (hp : packWord opc p.bit 0 &&& 0xFF7FFFFF = r.pattern) : Statement i := by
  intro hw
  have hk : k < 2097152 := by simpa [Instr.wellFormed, hi] using hw
  refine ⟨r, hr, hm, ?_⟩
  rw [OpcodeRow.selects, he, hmask, ← BitVec.and_assoc, packWord_and_high ho (policy_bit_lt p) hk, hp,
    decide_eq_true rfl]

/-! ### By command -/

theorem add (p : Policy) : Statement (.add p) := by cases p <;> (intro _; decide)
theorem sub (p : Policy) : Statement (.sub p) := by cases p <;> (intro _; decide)
theorem mul (p : Policy) : Statement (.mul p) := by cases p <;> (intro _; decide)
theorem div (p : Policy) : Statement (.div p) := by cases p <;> (intro _; decide)
theorem cmpeq : Statement .cmpeq := by intro _; decide
theorem cmpne : Statement .cmpne := by intro _; decide
theorem cmplt : Statement .cmplt := by intro _; decide
theorem cmple : Statement .cmple := by intro _; decide
theorem cmpgt : Statement .cmpgt := by intro _; decide
theorem cmpge : Statement .cmpge := by intro _; decide
theorem fromint : Statement .fromint := by intro _; decide
theorem toint : Statement .toint := by intro _; decide
theorem fromraw : Statement .fromraw := by intro _; decide
theorem rdtw (k : Nat) : Statement (.rdtw k) :=
  of_ix ⟨"RDTW", 0xFFE00000, 0x30000000⟩ (by decide) rfl rfl rfl (by decide) rfl (by decide)
theorem wrx (k : Nat) : Statement (.wrx k) :=
  of_ix ⟨"WRX", 0xFFE00000, 0x40000000⟩ (by decide) rfl rfl rfl (by decide) rfl (by decide)
theorem rdx (k : Nat) : Statement (.rdx k) :=
  of_ix ⟨"RDX", 0xFFE00000, 0x41000000⟩ (by decide) rfl rfl rfl (by decide) rfl (by decide)
theorem bitrev (k : Nat) : Statement (.bitrev k) :=
  of_ix ⟨"BITREV", 0xFFE00000, 0x50000000⟩ (by decide) rfl rfl rfl (by decide) rfl (by decide)
theorem fftFwd (p : Policy) (k : Nat) : Statement (.fftFwd p k) :=
  of_tp p ⟨"FFT.FWD", 0xFF600000, 0x51000000⟩ (by decide) rfl rfl rfl (by decide) rfl
    (by cases p <;> decide)
theorem fftInv (p : Policy) (k : Nat) : Statement (.fftInv p k) :=
  of_tp p ⟨"FFT.INV", 0xFF600000, 0x52000000⟩ (by decide) rfl rfl rfl (by decide) rfl
    (by cases p <;> decide)

end Sys2Proof.Laws.OpcodeRow
end

