-- ==== Sys2Proof/Tests/Slice0.lean ====
section
/-! SUPPORT. Small tests. Expected results are those of spec/95_test_vectors.md (the section is named beside each
group) or of the rule named. The witnesses give, for each statement with hypotheses, values that meet
all of them together. -/

namespace Sys2Proof.Tests

open Sys2Proof Sys2Proof.Machine

/-! ### Helpers -/

/-- A `(t, f)` instance with the given length, scaling and twiddle ROM. -/
def cfg (t f n : Nat) (inv : InvScale) (tw : List Sample) : Cfg := ⟨t, f, n, inv, tw⟩

/-- (16,8) with `N = 1`, `2` and `4`. -/
def cfg1 : Cfg := cfg 16 8 1 .div []
def cfg2 : Cfg := cfg 16 8 2 .div [⟨256, 0⟩]
def cfg4 : Cfg := cfg 16 8 4 .div [⟨256, 0⟩, ⟨0, -256⟩]

/-- A command at the port of an instance with the given sample memory. -/
def at_ (c : Cfg) (m : Memory) (word : BitVec 32) (a b : Word) : State :=
  ⟨c, m, ⟨false, true, word, a, b, false⟩, [], none⟩

/-- The same for an ALU command at (16,8), `N = 8`. -/
def alu8 (word : BitVec 32) (a b : Word) : State := at_ referenceCfg [] word a b

/-- The response of the next step. -/
def answer (s : State) : Option Response := (nextOf (step s)).bind fun t => t.rsp

/-- The sample memory after the next step. -/
def memAfter (s : State) : Option Memory := (nextOf (step s)).map fun t => t.xmem

/-- An `OK` response. -/
def done (a b : Word) : Option Response := some ⟨.ok, a, b⟩

/-- An error response. -/
def err (e : ErrCode) : Option Response := some ⟨e, 0, 0⟩

/-- The eight cells of spec/95 section 2.8 before `BITREV #8`. -/
def cells8 : List Sample :=
  [⟨0x100, 0⟩, ⟨0x200, 0x10⟩, ⟨0x300, 0x20⟩, ⟨0x400, 0x30⟩, ⟨0x500, 0x40⟩, ⟨0x600, 0x50⟩, ⟨0x700, 0x60⟩,
   ⟨0x800, 0x70⟩]

/-- `[1,2,3,4]` at (16,8) and its transform (R208, R271). -/
def cells4 : List Sample := [⟨256, 0⟩, ⟨512, 0⟩, ⟨768, 0⟩, ⟨1024, 0⟩]
def bins4 : List Sample := [⟨2560, 0⟩, ⟨-512, 512⟩, ⟨-512, 0⟩, ⟨-512, -512⟩]

/-! ### Well-formed commands (R63) -/

theorem test_wellFormed_refuses_rdtw : (Instr.rdtw (2 ^ 21)).wellFormed = false := by decide
theorem test_wellFormed_refuses_wrx : (Instr.wrx (2 ^ 21)).wellFormed = false := by decide
theorem test_wellFormed_refuses_rdx : (Instr.rdx (2 ^ 22)).wellFormed = false := by decide
theorem test_wellFormed_refuses_bitrev : (Instr.bitrev (2 ^ 21)).wellFormed = false := by decide
theorem test_wellFormed_refuses_fftFwd : (Instr.fftFwd .saturate (2 ^ 21)).wellFormed = false := by decide
theorem test_wellFormed_refuses_fftInv : (Instr.fftInv .wrapAround (2 ^ 21)).wellFormed = false := by decide

/-! ### Decoding: words written out from R61 and R65 -/

theorem test_decode_fxalu :
    decode 0b00000001_0_00_000000000000000000000 = .ok (.add .saturate) ∧
    decode 0b00000010_1_00_000000000000000000000 = .ok (.sub .wrapAround) ∧
    decode 0b00000011_0_00_000000000000000000000 = .ok (.mul .saturate) ∧
    decode 0b00000100_1_00_000000000000000000000 = .ok (.div .wrapAround) ∧
    decode 0b00100000_0_00_000000000000000000000 = .ok .fromint ∧
    decode 0b00100001_0_00_000000000000000000000 = .ok .toint ∧
    decode 0b00100010_0_00_000000000000000000000 = .ok .fromraw := by decide

theorem test_decode_compare :
    decode 0b00010000_0_00_000000000000000000000 = .ok .cmpeq ∧
    decode 0b00010001_0_00_000000000000000000000 = .ok .cmpne ∧
    decode 0b00010010_0_00_000000000000000000000 = .ok .cmplt ∧
    decode 0b00010011_0_00_000000000000000000000 = .ok .cmple ∧
    decode 0b00010100_0_00_000000000000000000000 = .ok .cmpgt ∧
    decode 0b00010101_0_00_000000000000000000000 = .ok .cmpge := by decide

theorem test_decode_memory :
    decode 0b00110000_0_00_000000000000000000011 = .ok (.rdtw 3) ∧
    decode 0b01000000_0_00_100000000000000000001 = .ok (.wrx 0x100001) ∧
    decode 0b01000001_0_00_111111111111111111111 = .ok (.rdx 0x1FFFFF) := by decide

theorem test_decode_transform :
    decode 0b01010000_0_00_000000000000000001000 = .ok (.bitrev 8) ∧
    decode 0b01010001_1_00_000000000000000001000 = .ok (.fftFwd .wrapAround 8) ∧
    decode 0b01010010_0_00_000000000000100000000 = .ok (.fftInv .saturate 256) := by decide

/-- spec/95 section 2.11: words that select no row. -/
theorem test_decode_illegal :
    decode 0x01E00000 = .error .reservedBits ∧ decode 0xFFFFFFFF = .error .unusedOpcode ∧
    decode 0x05000000 = .error .unusedOpcode ∧ decode 0x30800000 = .error .policyNotAllowed ∧
    decode 0x20000010 = .error .immediateNotAllowed := by decide

theorem test_decodeTableWord : decodeTableWord 32 0x51800008 = some (.fftFwd .wrapAround 8) := by decide

/-! ### FXALU: spec/95 sections 2.1 to 2.4, at (16,8) -/

theorem test_add_overflow_saturate : answer (alu8 0x01000000 0x7FFF 0x0001) = done 0x7FFF 0 := by decide
theorem test_add_overflow_wraps_to_the_opposite_bound :
    answer (alu8 0x01800000 0x7000 0x2000) = done 0x8000 0 := by decide
theorem test_sub_negates_min : answer (alu8 0x02800000 0x0000 0x8000) = done 0x8000 0 := by decide
theorem test_sub_operand_order : answer (alu8 0x02000000 0x0180 0x0280) = done 0xFF00 0 := by decide
theorem test_mul_floors : answer (alu8 0x03000000 0xFF01 0x0001) = done 0xFFFF 0 := by decide
theorem test_mul_overflow : answer (alu8 0x03800000 0x8000 0x7FFF) = done 0x7FFF 0 := by decide
theorem test_div_truncates_toward_zero : answer (alu8 0x04000000 0xFFF9 0x0200) = done 0xFFFD 0 := by decide
theorem test_div_by_zero : answer (alu8 0x04800000 0x0000 0x0000) = err .divByZero := by decide
theorem test_compare_is_signed :
    (answer (alu8 0x10000000 0x8000 0x7FFF), answer (alu8 0x11000000 0x8000 0x7FFF),
      answer (alu8 0x12000000 0x8000 0x7FFF), answer (alu8 0x13000000 0x8000 0x7FFF),
      answer (alu8 0x14000000 0x8000 0x7FFF), answer (alu8 0x15000000 0x8000 0x7FFF)) =
    (done 0 0, done 1 0, done 1 0, done 1 0, done 0 0, done 0 0) := by decide
theorem test_compare_equal :
    (answer (alu8 0x10000000 0x0280 0x0280), answer (alu8 0x11000000 0x0280 0x0280),
      answer (alu8 0x12000000 0x0280 0x0280), answer (alu8 0x13000000 0x0280 0x0280),
      answer (alu8 0x14000000 0x0280 0x0280), answer (alu8 0x15000000 0x0280 0x0280)) =
    (done 1 0, done 0 0, done 0 0, done 1 0, done 0 0, done 1 0) := by decide
theorem test_fromint_truncates : answer (alu8 0x20000000 0x00FF 0xBEEF) = done 0xFF00 0 := by decide
theorem test_toint_floors : answer (alu8 0x21000000 0xFD80 0x0000) = done 0xFFFD 0 := by decide
theorem test_fromraw : answer (alu8 0x22000000 0x8000 0x1234) = done 0x8000 0 := by decide

/-- spec/95 section 2.2: other widths. -/
theorem test_mul_at_64 :
    answer (at_ (cfg 64 32 1 .div []) [] 0x03000000 0xFFFFFFFFFFFFFFFF 1) = done 0xFFFFFFFFFFFFFFFF 0 := by
  decide
theorem test_add_clamps_at_the_storage_width :
    answer (at_ (cfg 12 4 1 .div []) [] 0x01000000 0x07FF 0x0001) = done 0x0800 0 := by decide

/-! ### TWROM: spec/95 section 2.7 -/

theorem test_rdtw : answer (alu8 0x30000003 0 0) = done 0xFF4B 0xFF4B := by decide
theorem test_rdtw_bad_index : answer (alu8 0x30000004 0 0) = err .badIndex := by decide
theorem test_canonical_twiddles : referenceCfg.canonicalTw = some referenceCfg.tw := by decide
theorem test_canonical_twiddles_wide : (cfg 32 16 8 .div []).canonicalTw =
    some [⟨65536, 0⟩, ⟨46341, -46341⟩, ⟨0, -65536⟩, ⟨-46341, -46341⟩] := by decide

/-! ### Sample memory: spec/95 sections 2.11 and 2.12 -/

theorem test_wrx : memAfter (at_ cfg4 [] 0x40000002 0x0300 0xFFFF) = some [(2, ⟨768, -1⟩)] := by decide
theorem test_wrx_bad_index : answer (alu8 0x40000008 0x0100 0) = err .badIndex := by decide
theorem test_rdx : answer (at_ cfg4 [(2, ⟨768, -1⟩)] 0x41000002 0xAAAA 0x5555) = done 0x0300 0xFFFF := by decide
theorem test_rdx_unwritten : nextOf (step (at_ cfg4 [(2, ⟨768, 0⟩)] 0x41000000 0 0)) = none := by decide

/-! ### BREV: spec/95 section 2.8 -/

theorem test_bit_reversal : (cfg 16 8 16 .div []).br = [0, 8, 4, 12, 2, 10, 6, 14, 1, 9, 5, 13, 3, 11, 7, 15] := by
  decide
theorem test_swap_pairs :
    (cfg 16 8 16 .div []).swapPairs = [(1, 8), (2, 4), (3, 12), (5, 10), (7, 14), (11, 13)] := by decide
theorem test_bitrev : memAfter (at_ referenceCfg (Memory.ofCells cells8) 0x50000008 0 0) =
    some (Memory.ofCells [⟨0x100, 0⟩, ⟨0x500, 0x40⟩, ⟨0x300, 0x20⟩, ⟨0x700, 0x60⟩, ⟨0x200, 0x10⟩, ⟨0x600, 0x50⟩,
      ⟨0x400, 0x30⟩, ⟨0x800, 0x70⟩]) := by decide
theorem test_bitrev_size_mismatch : answer (alu8 0x50000004 0 0) = err .sizeMismatch := by decide

/-! ### BFLY: spec/95 sections 2.6 and 2.9 -/

theorem test_cmul : cmul referenceCfg .saturate ⟨384, -640⟩ ⟨181, -181⟩ = ⟨-181, -725⟩ := by decide
theorem test_bfly : bfly referenceCfg .wrapAround ⟨-20000, 20000⟩ ⟨20000, 20000⟩ ⟨181, -181⟩ =
    (⟨8281, 19999⟩, ⟨32767, 20001⟩) := by decide

/-! ### FFTCORE: spec/95 section 2.10 -/

/-- T9 -/
theorem test_fft_fwd : memAfter (at_ cfg4 (Memory.ofCells cells4) 0x51000004 0 0) = some (Memory.ofCells bins4) := by
  decide
/-- T17 -/
theorem test_fft_inv_wrap :
    memAfter (at_ cfg4 (Memory.ofCells [⟨32767, 0⟩, ⟨25600, -25600⟩, ⟨0, 0⟩, ⟨25600, 25600⟩]) 0x52800004 0 0) =
    some (Memory.ofCells [⟨0, 0⟩, ⟨0, 0⟩, ⟨-8192, 0⟩, ⟨-8192, 0⟩]) := by decide
/-- T33 -/
theorem test_fft_inv_div_by_zero :
    answer (at_ (cfg 8 6 8 .div []) [] 0x52000008 0 0) = err .divByZero := by decide
theorem test_fft_size_mismatch : answer (alu8 0x51000010 0 0) = err .sizeMismatch := by decide

/-! ### Host functions: spec/95 sections 2.5 and 2.11, R208, R72, R73 -/

theorem test_quantise : referenceCfg.quantise (5 / 2) = some 640 := by decide +kernel
theorem test_quantise_tie : referenceCfg.quantise (-1 / 512) = some (-1) := by decide +kernel
theorem test_quantise_out_of_range : referenceCfg.quantise 128 = none := by decide +kernel
/-- R153: the largest odd raw value a double holds, and one it rounds away from zero: `2^54 + 3`. -/
theorem test_to_double : nearestInt 53 9007199254740991 = 9007199254740991 ∧
    nearestInt 53 (-18014398509481987) = -18014398509481988 := by decide +kernel
theorem test_dft : dftReal referenceCfg .saturate [256, 512, 768, 1024] = some bins4 := by decide
theorem test_construction :
    ((cfg 16 8 6 .div []).valid, (cfg 16 8 0 .div []).valid, (cfg 16 15 2 .div []).valid,
      (cfg 16 15 1 .div []).valid, (cfg 16 15 1 .mulRecip []).valid, (cfg 65 8 1 .div []).valid) =
    (false, false, false, true, false, false) := by decide
theorem test_assemble_sub :
    assembleText referenceCfg ['S', 'U', 'B', '.', 'W', ' ', '0', 'x', '8', '0', '0', '0', ',', ' ', '-', '1', ' ', ';', 'x'] =
    some ⟨0x02800000, 0x8000, 0xFFFF⟩ := by decide
theorem test_assemble_fft :
    assembleText referenceCfg ['F', 'F', 'T', '.', 'I', 'N', 'V', '.', 'S'] = some ⟨0x52000008, 0, 0⟩ := by decide

/-! ### Reset, idle, and an illegal word (R31, R318, R67) -/

theorem test_reset_cuts_a_command_short :
    (nextOf (step ⟨cfg4, [(2, ⟨768, 0⟩)], ⟨false, true, 0x40000001, 1, 1, true⟩, [], none⟩)).map
      (fun t => (t.xmem, t.rsp)) = some ([], none) := by decide
theorem test_illegal_word : answer (alu8 0x04000007 0x0100 0) = err .illegalCommand := by decide
theorem test_fetch_word_runs_next :
    answer (State.reset.withFetchWord 32 0x30000001) = done 0x00B5 0xFF4B := by decide

/-! ### Witnesses: values that meet all hypotheses of a statement together, clause by clause -/

/-- A two-cell instance with both cells written, and a command at its port. -/
def full2 (word : BitVec 32) : State := at_ cfg2 [(0, ⟨768, -256⟩), (1, ⟨256, 512⟩)] word 0x7FFF 0xFFFF

theorem witness_EveryCommandRoundTrips : (Instr.fftInv .wrapAround 2097151).wellFormed = true := by decide

theorem witness_DecodedWordIsItsEncoding : decode 0x52FFFFFF = .error .reservedBits ∧
    decode 0x529FFFFF = .ok (.fftInv .wrapAround 2097151) := by decide

theorem witness_IllegalWordIsAnswered : (full2 0x01200000).port.accepts = true ∧
    IllegalWord (full2 0x01200000).port.cmdWord := by decide

theorem witness_StepRunsTheDecodedCommand : (full2 0x51000002).port.accepts = true ∧
    decode (full2 0x51000002).port.cmdWord = .ok (.fftFwd .saturate 2) := by decide

theorem witness_IdleSlotChangesNothing :
    State.reset.port.rst = false ∧ State.reset.port.cmdValid = false := by decide

/-- Reset with a cell written; and a command cut short. -/
def resetting (rst : Bool) : State := ⟨cfg2, [(0, ⟨1, 2⟩)], ⟨rst, true, 0x41000000, 0, 0, true⟩, [], none⟩

theorem witness_ResetEmptiesTheSampleMemory : (resetting true).port.rst = true ∧
    ((resetting false).port.cmdValid = true ∧ (resetting false).port.rstBeforeRsp = true) := by decide

theorem witness_OneResponsePerAcceptedCommand :
    (nextOf (step (full2 0x51000002))).isSome = true ∧ (nextOf (step State.reset)).isSome = true := by decide

theorem witness_SlotOutcomeDependsOnMemoryAndSlotOnly :
    let s := full2 0x51000002
    let s' := (⟨s.cfg, s.xmem, s.port, [Port.idle], some ⟨.badIndex, 0, 0⟩⟩ : State)
    s' ≠ s ∧ s'.cfg = s.cfg ∧ s'.xmem = s.xmem ∧ s'.port = s.port := by decide

/-- No operand, one and two; the other words differ in the bits that do not count. -/
theorem witness_UnusedOperandsAreIgnored :
    (Instr.rdtw 0).operandCount = 0 ∧ Instr.toint.operandCount = 1 ∧ (Instr.add .saturate).operandCount = 2 ∧
    (0xABCD7FFF : Word).toNat % 2 ^ cfg2.w = (full2 0).port.cmdOpa.toNat % 2 ^ cfg2.w ∧
    (0xABCDFFFF : Word).toNat % 2 ^ cfg2.w = (full2 0).port.cmdOpb.toNat % 2 ^ cfg2.w := by decide

/-- A divisor -1 and a divisor 0 whose word is not 0. -/
theorem witness_DivCompletesOrReportsZero :
    (full2 0).opB = -1 ∧ (at_ cfg2 [] 0 5 0x10000).opB = 0 := by decide

/-- Both sources of the error, and an answer that carries it. -/
theorem witness_DivisionByZeroIsReported : (at_ cfg2 [] 0 5 0x10000).opB = 0 ∧
    ((cfg 8 6 4 .div []).invScale = .div ∧ (cfg 8 6 4 .div []).nfx = 0) ∧
    (nextOf (exec (.div .saturate) (at_ cfg2 [] 0 5 0x10000))).map (fun t => t.rsp) = some (err .divByZero) := by
  decide

theorem witness_OperandsAreSignedWords : cfg2.min ≤ -32768 ∧ (-32768 : Int) ≤ cfg2.max := by decide

theorem witness_FromRawPassesTheWord : (nextOf (exec .fromraw (full2 0))).isSome = true := by decide

theorem witness_AluUnitIsWhatTheCommandsAnswer :
    (Instr.div .wrapAround, AluOp.div) ∈ [(Instr.div .wrapAround, AluOp.div), (.fromraw, .fromRaw)] := by decide

/-- The bounds, and `F = W - 2`. -/
theorem witness_ArithmeticLaws : let c := cfg 16 14 1 .div []
    c.inRange (-32768) = true ∧ c.inRange 32767 = true ∧ c.fracBits ≤ c.w - 2 := by decide

theorem witness_PolicyFunctionShape :
    referenceCfg.overflows 32768 = true ∧ referenceCfg.overflows 32767 = false ∧ (-32769 : Int) ≤ 32768 := by
  decide

/-- The largest wide values, at `F = W - 1`. -/
theorem witness_WideValuesFitThePromotedWidth : let c := cfg 16 15 1 .div []
    c.fracBits ≤ c.w - 1 ∧ c.inRange (-32768) = true ∧ c.inRange (-1) = true ∧ (-1 : Int) ≠ 0 := by decide

/-- The last entry and the first index past the table. -/
theorem witness_RdtwAnswersTheEntry :
    referenceCfg.twOk = true ∧ 3 < referenceCfg.n / 2 ∧ referenceCfg.n / 2 ≤ 4 := by decide

theorem witness_TwiddleGeneratorIsExact : 1 ≤ 6 := by decide

/-- `N = 1`, `2` and `4`. -/
theorem witness_CanonicalTableExists : cfg1.valid = true ∧ (cfg2.valid = true ∧ 2 ≤ cfg2.n) ∧
    (cfg4.valid = true ∧ 4 ≤ cfg4.n) := by decide

/-- The largest immediate, for every `Coded` clause. -/
theorem witness_codedWords : 2097151 < 2 ^ 21 := by decide

theorem witness_WrxWritesOneCell : 1 < (full2 0).cfg.n ∧ (full2 0).cfg.n ≤ 2 := by decide

/-- A written cell, an unwritten one and an index past the cells. -/
theorem witness_RdxReadsOneCell : let s := at_ cfg2 [(1, ⟨256, 512⟩)] 0 0 0
    Memory.fits s.cfg s.xmem = true ∧ (1 < s.cfg.n ∧ Memory.read s.xmem 1 = some ⟨256, 512⟩) ∧
    (0 < s.cfg.n ∧ Memory.read s.xmem 0 = none) ∧ s.cfg.n ≤ 2 := by decide

theorem witness_WriteThenReadReturnsTheWords :
    let d : Port := ⟨false, true, 0x41000001, 0, 0, false⟩
    let s : State := ⟨cfg2, [], ⟨false, true, 0x40000001, 0x8000, 0x1FFFF, false⟩, [d], none⟩
    s.cfg.valid = true ∧ 1 < s.cfg.n ∧ s.port.accepts = true ∧ s.port.cmdWord = encode (.wrx 1) ∧
    s.inputs = [d] ∧ d.accepts = true ∧ d.cmdWord = encode (.rdx 1) := by decide

theorem witness_BitReversalTable : 7 < 2 ^ 3 ∧ 2 < 3 := by decide

theorem witness_PermutationPlacesEveryCell :
    referenceCfg.valid = true ∧ cells8.length = referenceCfg.n ∧ 7 < referenceCfg.n := by decide

theorem witness_BitrevPermutesTheCells :
    (full2 0).cfg.valid = true ∧ 2 = (full2 0).cfg.n ∧ (full2 0).allWritten = true ∧ 3 ≠ (full2 0).cfg.n := by
  decide

theorem witness_TwoBitrevRestoreTheCells :
    (full2 0).good = true ∧ (full2 0).allWritten = true := by decide

theorem witness_ButterflyWithUnitTwiddles : referenceCfg.sampleOk ⟨-32767, 32767⟩ = true ∧
    (-32767 : Int) ≠ referenceCfg.min ∧ (32767 : Int) ≠ referenceCfg.min := by decide

theorem witness_StageIsItsDisjointButterflies : referenceCfg.valid = true ∧ cells8.length = referenceCfg.n ∧
    2 < referenceCfg.levels ∧ 3 < referenceCfg.n ∧ Nat.testBit 3 2 = false := by decide

theorem witness_LoopNestComputesTheTransform : (List.replicate 4 (0 : ℂ)).length = 2 ^ 2 ∧ 3 < 2 ^ 2 :=
  ⟨by simp, by decide⟩

theorem witness_ImpulseGivesAFlatSpectrum :
    referenceCfg.valid = true ∧ referenceCfg.sampleOk ⟨-32768, 32767⟩ = true := by decide

/-- `DIV` with `NFX = 0`, which every `N` of (8,6) from 4 on has, and every other clause at `N = 2`. -/
theorem witness_TransformCommandsComplete : let c := cfg 8 6 4 .div [⟨64, 0⟩, ⟨0, -64⟩]
    (2 = (full2 0).cfg.n ∧ (full2 0).allWritten = true) ∧ 3 ≠ (full2 0).cfg.n ∧
    (4 = c.n ∧ c.invScale = .div ∧ c.nfx = 0) ∧
    (2 = (full2 0).cfg.n ∧ (full2 0).cfg.nfx ≠ 0 ∧ (full2 0).allWritten = true) := by decide

theorem witness_TransformsFaultOnUnwrittenCells : let s := at_ cfg2 [(1, ⟨256, 512⟩)] 0 0 0
    s.allWritten = false ∧ s.cfg.nfx ≠ 0 := by decide

theorem witness_ForwardAtOneAndTwoPoints : cfg1.n = 1 ∧ (cfg2.n = 2 ∧ cfg2.valid = true ∧
    cfg2.tw = [⟨cfg2.one, 0⟩] ∧ cfg2.sampleOk ⟨-32768, 32767⟩ = true) := by decide

/-- `F = W - 2` and `F = W - 1`, with an imaginary part `MIN`. -/
theorem witness_InverseAtOnePoint : let c := cfg 16 14 1 .div []
    let d := cfg 16 15 1 .div []
    (c.n = 1 ∧ c.valid = true ∧ c.invScale = .div ∧ c.sampleOk ⟨5, -32768⟩ = true ∧ c.fracBits ≤ c.w - 2) ∧
    (d.n = 1 ∧ d.valid = true ∧ d.invScale = .div ∧ d.sampleOk ⟨5, -32768⟩ = true ∧ d.fracBits = d.w - 1) := by
  decide

/-- The six clauses of the closed forms, each at its boundary, at (16,8). -/
theorem witness_ScalingConstantsClosedForm :
    let c := fun n => cfg 16 8 n .div []
    ((c 64).valid = true ∧ (c 64).levels + 8 ≤ (c 64).w - 2) ∧
    ((c 128).valid = true ∧ (c 128).levels + 8 = (c 128).w - 1) ∧
    ((c 256).valid = true ∧ (c 256).w ≤ (c 256).levels + 8 ∧ (c 256).levels ≤ 8) ∧
    ((c 512).valid = true ∧ (c 512).levels = 8 + 1) ∧
    ((c 1024).valid = true ∧ 8 + 2 ≤ (c 1024).levels) := by decide

theorem witness_ScalingDividesByN : let c := fun n inv => cfg 16 8 n inv []
    ((c 64 .div).valid = true ∧ (c 64 .div).inRange (-32768) = true ∧
      (c 64 .div).levels + 8 ≤ (c 64 .div).w - 2) ∧
    ((c 256 .mulRecip).valid = true ∧ (c 256 .mulRecip).inRange (-32768) = true ∧
      (c 256 .mulRecip).levels ≤ 8) := by decide

theorem witness_ErrorsChangeNothing :
    (nextOf (exec (.rdx 2) (full2 0))).map (fun t => t.rsp) = some (err .badIndex) ∧
    answer (full2 0x41000002) = err .badIndex := by decide

theorem witness_WhoRaisesWhichError :
    (nextOf (exec (.bitrev 3) (full2 0))).map (fun t => t.rsp) = some (err .sizeMismatch) := by decide

/-- A command that changes the sample memory. -/
theorem witness_OnlyFourCommandsWriteTheSampleMemory :
    (nextOf (exec (.wrx 1) (full2 0))).map (fun t => decide (t.xmem ≠ (full2 0).xmem)) = some true := by decide

theorem witness_MachineStopsOnUnwrittenCellsOnly : (full2 0x52000002).allWritten = true := by decide

theorem witness_StepKeepsGood :
    (full2 0x52000002).good = true ∧ (nextOf (step (full2 0x52000002))).isSome = true := by decide

theorem witness_StepKeepsTheConfiguration : (nextOf (step (resetting true))).isSome = true := by decide

/-- The hypotheses inside R9, R12 and R13, at their bounds. -/
theorem witness_ConstructionChecks : let c := cfg 17 15 2 .mulRecip []
    c.totalBits ≤ 64 ∧ c.totalBits ≤ 32 ∧ 2 ≤ c.n ∧ c.invScale = .mulRecip ∧ c.valid = true := by decide

theorem witness_ElaborationGivesAnInstanceOrAnError :
    Constructible cfg2 ∧ ¬ Constructible (cfg 16 15 2 .div []) :=
  ⟨⟨by decide, by decide, by decide, ⟨1, by decide, by decide⟩, by decide, by decide⟩,
    fun h => absurd (h.2.2.2.2.1 (by decide)) (by decide)⟩

/-- A rounded half and the lower bound. -/
theorem witness_QuantisationRoundsToNearest :
    rha (1 / 512 * 2 ^ 8) = 1 ∧ referenceCfg.inRange (-32768) = true := by decide +kernel

theorem witness_FloatingValueIsNearest : |(16777215 : Int)| < 2 ^ 24 ∧ |(9007199254740991 : Int)| < 2 ^ 53 ∧
    (cfg 32 16 1 .div []).w ≤ 32 ∧ (cfg 32 16 1 .div []).inRange (-2147483648) = true := by decide

theorem witness_ReferenceInverseDividesByZero : let c := cfg 16 14 1 .div []
    c.fracBits ≤ c.w - 2 := by decide

/-- `NEG.S 0x8000`, and `WRX` with the largest immediate and both bounds. -/
theorem witness_AssembledLinesAreCommands :
    assemble referenceCfg ⟨.neg, some .saturate, none, [.hex 4 0x8000]⟩ = some ⟨0x02000000, 0, 0x8000⟩ ∧
    (let l : AsmLine := ⟨.neg, some .saturate, none, [.hex 4 0x8000]⟩
     l.expand.instr referenceCfg = some (.sub .saturate) ∧ (Instr.sub .saturate).wellFormed = true ∧
      l.expand.operands.mapM (AsmNumber.value referenceCfg) = some [0, -32768] ∧
      [(0 : Int), -32768].length = (Instr.sub .saturate).operandCount) ∧
    ((Instr.wrx 2097151).wellFormed = true ∧ referenceCfg.inRange (-32768) = true ∧
      referenceCfg.inRange 32767 = true ∧ 2 ≤ (Instr.wrx 2097151).operandCount) := by
  decide

end Sys2Proof.Tests
end

/-! PROOFS. Construction, elaboration and the configuration: the statements of 00_scope.md. -/

namespace Sys2Proof

/-! ### The storage width (R9) -/

theorem storageWidth_mem (t : Nat) : storageWidth t ∈ [8, 16, 32, 64] := by
  unfold storageWidth
  split_ifs <;> decide

theorem le_storageWidth {t : Nat} (h : t ≤ 64) : t ≤ storageWidth t := by
  unfold storageWidth
  split_ifs <;> omega

/-- No smaller width of the set holds the value. -/
theorem storageWidth_le {t v : Nat} (hv : v ∈ [8, 16, 32, 64]) (h : t ≤ v) : storageWidth t ≤ v := by
  simp only [List.mem_cons, List.not_mem_nil, or_false] at hv
  unfold storageWidth
  split_ifs <;> omega

/-! ### The construction checks (R11 to R13) -/

theorem isPowerOfTwo_iff (n : Nat) : isPowerOfTwo n = true ↔ ∃ k, n = 2 ^ k := by
  rw [isPowerOfTwo, decide_eq_true_iff]
  constructor
  · intro h
    exact ⟨_, h⟩
  · rintro ⟨k, rfl⟩
    rw [Nat.log2_two_pow]

/-- The two checks on `N` (R12, R13) as one: the exponent is at most 20. -/
theorem isPowerOfTwo_and_le_iff (n : Nat) :
    (isPowerOfTwo n = true ∧ n ≤ 2 ^ 20) ↔ ∃ k, k ≤ 20 ∧ n = 2 ^ k := by
  rw [isPowerOfTwo_iff]
  constructor
  · rintro ⟨⟨k, rfl⟩, hle⟩
    exact ⟨k, (Nat.pow_le_pow_iff_right (by decide)).mp hle, rfl⟩
  · rintro ⟨k, hk, rfl⟩
    exact ⟨⟨k, rfl⟩, Nat.pow_le_pow_right (by decide) hk⟩

theorem Cfg.valid_iff_constructible (c : Cfg) : c.valid = true ↔ Machine.Constructible c := by
  rw [Machine.Constructible, ← isPowerOfTwo_and_le_iff]
  simp only [Cfg.valid, Bool.and_eq_true, decide_eq_true_iff]
  tauto

/-- Settles O55: the width by its branches, the checks clause by clause. -/
theorem constructionChecks : Obligations.ConstructionChecks := by
  intro c
  exact ⟨⟨storageWidth_mem _, le_storageWidth, fun v => storageWidth_le⟩, c.valid_iff_constructible⟩

/-! ### The twiddle generator stays within `-ONE .. ONE` -/

/-- The search never passes `2^F`: every power it adds is guarded by that bound. -/
theorem cosSearch_le (f m j : Nat) : ∀ bits r, r ≤ 2 ^ f → cosSearch f m j bits r ≤ 2 ^ f := by
  intro bits
  induction bits with
  | zero =>
    intro r h
    exact h
  | succ bits ih =>
    intro r h
    simp only [cosSearch, Bool.and_eq_true, decide_eq_true_iff]
    split_ifs with hr
    · exact ih _ hr.1
    · exact ih _ h

theorem abs_rhaCos_le (f m j : Nat) : |rhaCos f m j| ≤ ((2 ^ f : Nat) : Int) := by
  have search (i : Nat) : cosSearch f m i (f + 1) 0 ≤ 2 ^ f := cosSearch_le f m i _ _ (Nat.zero_le _)
  unfold rhaCos
  split_ifs
  · rw [Nat.abs_cast]
    exact_mod_cast search j
  · rw [abs_neg, Nat.abs_cast]
    exact_mod_cast search (m - j)

/-- With an integer bit beside the sign, `ONE` and `-ONE` are raw values (R13 (a), (c)). -/
theorem Cfg.inRange_of_abs_le_one {c : Cfg} (hF : c.fracBits ≤ c.w - 2) {v : Int} (hv : |v| ≤ c.one) :
    c.inRange v = true := by
  have hw : c.fracBits < c.w - 1 := by
    rcases c.w_cases with h | h | h | h <;> omega
  have hone : c.one < ((2 ^ (c.w - 1) : Nat) : Int) :=
    Int.ofNat_lt.mpr (Nat.pow_lt_pow_right (by decide) hw)
  obtain ⟨hlo, hhi⟩ := abs_le.mp hv
  rw [c.inRange_iff, Cfg.min, Cfg.max]
  omega

/-- Every twiddle of every length has raw values where `F ≤ W-2` (R151, R180). -/
theorem makeTwiddle_exists {c : Cfg} (hF : c.fracBits ≤ c.w - 2) (n m : Nat) (inverse : Bool) :
    ∃ t, makeTwiddle c n m inverse = some t ∧ c.sampleOk t = true := by
  have turn (j : Nat) : |rhaCosTurn c.fracBits n j| ≤ c.one := abs_rhaCos_le _ _ _
  have ok {re im : Int} (hre : |re| ≤ c.one) (him : |im| ≤ c.one) : c.sampleOk ⟨re, im⟩ = true :=
    (c.sampleOk_iff _).mpr ⟨Cfg.inRange_of_abs_le_one hF hre, Cfg.inRange_of_abs_le_one hF him⟩
  cases inverse with
  | true =>
    have h := ok (turn (4 * (m % n))) (turn ((4 * (m % n) + 3 * n) % (4 * n)))
    exact ⟨_, if_pos h, h⟩
  | false =>
    have h := ok (turn (4 * (m % n))) ((abs_neg _).trans_le (turn ((4 * (m % n) + 3 * n) % (4 * n))))
    exact ⟨_, if_pos h, h⟩

/-! ### The canonical table and elaboration (R181, R343) -/

/-- A traversal whose every element has an answer with a property answers a list of as many such. -/
theorem mapM_exists_of_forall {α β : Type} {f : α → Option β} {p : β → Prop} :
    ∀ {xs : List α}, (∀ x ∈ xs, ∃ y, f x = some y ∧ p y) →
      ∃ ys, xs.mapM f = some ys ∧ ys.length = xs.length ∧ ∀ y ∈ ys, p y := by
  intro xs
  induction xs with
  | nil =>
    intro _
    exact ⟨[], by simp⟩
  | cons x xs ih =>
    intro h
    obtain ⟨hx, hxs⟩ := List.forall_mem_cons.mp h
    obtain ⟨y, hy, py⟩ := hx
    obtain ⟨ys, hys, hlen, pys⟩ := ih hxs
    exact ⟨y :: ys, by simp [hy, hys], by simp [hlen], List.forall_mem_cons.mpr ⟨py, pys⟩⟩

/-- A configuration that passes the checks has a canonical table, and the table has the form of the ROM
(R26). With `N = 1` the table is empty, whatever `F` is. -/
theorem Cfg.canonicalTw_exists {c : Cfg} (hF : 2 ≤ c.n → c.fracBits ≤ c.w - 2) :
    ∃ tw, c.canonicalTw = some tw ∧ ({ c with tw := tw } : Cfg).twOk = true := by
  have entry : ∀ k ∈ List.range (c.n / 2),
      ∃ t, makeTwiddle c c.n k false = some t ∧ c.sampleOk t = true := by
    intro k hk
    have hk := List.mem_range.mp hk
    exact makeTwiddle_exists (hF (by omega)) c.n k false
  obtain ⟨tw, htw, hlen, hok⟩ := mapM_exists_of_forall entry
  rw [List.length_range] at hlen
  refine ⟨tw, htw, ?_⟩
  rw [Cfg.twOk, Bool.and_eq_true, decide_eq_true_iff, List.all_eq_true]
  exact ⟨hlen, hok⟩

namespace Machine

/-- The machine right after its first reset is a good state (R340). -/
theorem good_afterReset {c : Cfg} (h : c.isInstance = true) : (State.afterReset c).good = true := by
  simp [State.good, h, wf_nil, Memory.fits]

theorem elaborate_of_not_valid {c : Cfg} (h : ¬ c.valid = true) :
    elaborate c = .error .invalidConfiguration := if_neg h

/-- Elaboration of a configuration that passes the checks: the reset machine with the canonical table. -/
theorem elaborate_of_valid {c : Cfg} (h : c.valid = true) :
    ∃ tw, ({ c with tw := tw } : Cfg).isInstance = true ∧
      elaborate c = .ok (State.afterReset { c with tw := tw }) := by
  obtain ⟨-, -, -, -, hF, -⟩ := c.valid_iff_constructible.mp h
  obtain ⟨tw, htw, hok⟩ := Cfg.canonicalTw_exists hF
  have hi : ({ c with tw := tw } : Cfg).isInstance = true := by
    rw [Cfg.isInstance, hok, Bool.and_true]
    exact h
  refine ⟨tw, hi, ?_⟩
  simp [elaborate, h, htw, construct, hi]

end Machine

open Machine

/-- Settles O56: the canonical table of a configuration that passes exists, since no twiddle exceeds `ONE`
in magnitude, so `construct` accepts it. -/
theorem elaborationGivesAnInstanceOrAnError : Obligations.ElaborationGivesAnInstanceOrAnError := by
  intro c
  rw [← c.valid_iff_constructible]
  refine ⟨fun h => ?_, elaborate_of_not_valid⟩
  obtain ⟨tw, hi, he⟩ := elaborate_of_valid h
  exact ⟨_, he, good_afterReset hi, fun i => read_nil i, rfl, rfl, rfl, rfl, rfl⟩

/-! ### No step changes the configuration (R8, R26, R31) -/

theorem Machine.exec_cfg {i : Instr} {s t : State} (h : exec i s = .next t) : t.cfg = s.cfg := by
  rcases exec_cases h with ⟨_, _, rfl⟩ | ⟨_, _, rfl⟩ | ⟨_, _, _, rfl⟩ | ⟨_, _, _, _, rfl⟩
  · exact raise_cfg s _
  · exact respond_cfg s _ _
  · exact respond_cfg _ _ _
  · exact respond_cfg _ _ _

/-- Settles O54: by what a step can have done, reset, idle, an illegal word or a command, each of which
keeps the record. -/
theorem stepKeepsTheConfiguration : Obligations.StepKeepsTheConfiguration := by
  intro s t h
  rcases step_cases h with ⟨_, rfl | rfl⟩ | ⟨_, _, rfl⟩ | ⟨_, i, u, _, hu, rfl⟩
  · exact advance_cfg s.applyReset
  · exact advance_cfg s.idleSlot
  · exact advance_cfg (s.raise .illegalCommand)
  · exact (advance_cfg u).trans (exec_cfg hu)

end Sys2Proof

/-! PROOFS. The state, the step and what a command may touch: the statements of 10_state.md. -/

namespace Sys2Proof

/-- The unit answers a raw value when its first operand is one (R37). -/
theorem alu_inRange (c : Cfg) (op : AluOp) (p : Policy) {a : Int} (b : Int) (ha : c.inRange a = true) :
    c.inRange (alu c op p a b).1 = true := by
  cases op with
  | add => exact aluAdd_inRange c p a b
  | sub => exact aluSub_inRange c p a b
  | mul => exact aluMul_inRange c p a b
  | div =>
    by_cases hb : b = 0
    · simp [alu, aluDiv, hb, c.zero_inRange]
    · simp [alu, aluDiv, hb, aluQuot_inRange]
  | eq | ne | lt | le | gt | ge => exact truth_inRange c _
  | fromInt => exact c.fromInt_inRange a
  | toInt => exact c.toInt_inRange ha
  | fromRaw => exact ha

theorem Cfg.inverseDividesByZero_eq_false {c : Cfg} (h : c.invScale = .div → c.nfx ≠ 0) :
    c.inverseDividesByZero = false := by
  unfold Cfg.inverseDividesByZero
  split
  · exact decide_eq_false (h ‹_›)
  · rfl

namespace Machine

/-! ### The good state, update by update -/

theorem good_iff (s : State) : s.good = true ↔
    s.cfg.isInstance = true ∧ Memory.wf s.xmem = true ∧ Memory.fits s.cfg s.xmem = true ∧
      ∀ r, s.rsp = some r → r.ok s.cfg = true := by
  unfold State.good
  cases s.rsp <;> simp [and_assoc]

/-- A good state with another response, which is one of R71, or with none. -/
theorem good_of_same_memory {s t : State} (h : s.good = true) (hc : t.cfg = s.cfg) (hm : t.xmem = s.xmem)
    (hr : ∀ r, t.rsp = some r → r.ok s.cfg = true) : t.good = true := by
  obtain ⟨hi, hw, hf, -⟩ := (good_iff s).mp h
  rw [good_iff, hc, hm]
  exact ⟨hi, hw, hf, hr⟩

theorem response_ok_of_words (c : Cfg) (a b : Int) :
    (⟨.ok, toWord c.w a, toWord c.w b⟩ : Response).ok c = true := by
  simp [Response.ok, toWord_lt]

theorem response_ok_of_error (c : Cfg) {e : ErrCode} (he : e ≠ .invalidConfiguration) :
    (⟨e, 0, 0⟩ : Response).ok c = true := by
  simp [Response.ok, he]

theorem good_respond {s : State} (h : s.good = true) (a b : Int) : (s.respond a b).good = true :=
  good_of_same_memory h rfl rfl fun _ hr => Option.some.inj hr ▸ response_ok_of_words s.cfg a b

theorem good_raise {s : State} (h : s.good = true) {e : ErrCode} (he : e ≠ .invalidConfiguration) :
    (s.raise e).good = true :=
  good_of_same_memory h rfl rfl fun _ hr => Option.some.inj hr ▸ response_ok_of_error s.cfg he

theorem good_idleSlot {s : State} (h : s.good = true) : s.idleSlot.good = true :=
  good_of_same_memory h rfl rfl fun _ hr => nomatch hr

theorem good_advance {s : State} (h : s.good = true) : s.advance.good = true := by
  obtain ⟨-, -, -, hr⟩ := (good_iff s).mp h
  exact good_of_same_memory h (advance_cfg s) (advance_xmem s) (by simpa using hr)

theorem good_withXmem {s : State} (h : s.good = true) {m : Memory} (hw : Memory.wf m = true)
    (hf : Memory.fits s.cfg m = true) : (s.withXmem m).good = true := by
  obtain ⟨hi, -, -, hr⟩ := (good_iff s).mp h
  exact (good_iff _).mpr ⟨hi, hw, hf, hr⟩

theorem good_applyReset {s : State} (h : s.good = true) : s.applyReset.good = true :=
  good_idleSlot (good_withXmem h wf_nil rfl)

/-! ### Commands keep the good state -/

/-- No command raises the construction error (R303). -/
theorem mayRaise_ne_invalidConfiguration {i : Instr} {e : ErrCode} (h : MayRaise i e) :
    e ≠ .invalidConfiguration := by
  rintro rfl
  cases i <;> simp [MayRaise] at h

/-- A transform keeps the number of cells, and leaves raw values where it found them. -/
theorem transformOf_keeps {c : Cfg} {i : Instr} {xs ys : List Sample} (h : transformOf c i xs = some ys)
    (hxs : xs.all c.sampleOk = true) : ys.length = xs.length ∧ ys.all c.sampleOk = true := by
  cases i with
  | bitrev k => cases h; exact ⟨length_perm c xs, perm_ok c hxs⟩
  | fftFwd p k => cases h; exact ⟨length_forward c p xs, forward_ok c p hxs⟩
  | fftInv p k => cases h; exact ⟨length_inverse c p xs, inverse_ok c p xs⟩
  | _ => cases h

theorem exec_keeps_good {i : Instr} {s t : State} (hg : s.good = true) (h : exec i s = .next t) :
    t.good = true := by
  obtain ⟨-, hw, hf, -⟩ := (good_iff s).mp hg
  rcases exec_cases h with ⟨e, he, rfl⟩ | ⟨a, b, rfl⟩ | ⟨k, -, hk, rfl⟩ | ⟨xs, ys, hxs, hys, rfl⟩
  · exact good_raise hg (mayRaise_ne_invalidConfiguration he)
  · exact good_respond hg a b
  · have hx : s.cfg.sampleOk ⟨s.opA, s.opB⟩ = true :=
      (s.cfg.sampleOk_iff _).mpr ⟨opA_inRange s, opB_inRange s⟩
    exact good_respond (good_withXmem hg (wf_write k _ hw) (fits_write hf hk hx)) 0 0
  · obtain ⟨hlen, hok⟩ := transformOf_keeps hys (all_ok_of_readAll hf hxs)
    have hf' := fits_ofCells hok (hlen.trans (readAll_length hxs))
    exact good_respond (good_withXmem hg (wf_ofCells ys) hf') 0 0

/-- Settles O53: by what a step can have done, reset, idle, an illegal word or a command. -/
theorem stepKeepsGood : Obligations.StepKeepsGood := by
  intro s t hg h
  rcases step_cases h with ⟨-, rfl | rfl⟩ | ⟨-, -, rfl⟩ | ⟨-, i, u, -, hu, rfl⟩
  · exact good_advance (good_applyReset hg)
  · exact good_advance (good_idleSlot hg)
  · exact good_advance (good_raise hg (by decide))
  · exact good_advance (exec_keeps_good hg hu)

/-- Settles O52: the reference configuration passes the checks and its table has the form of the ROM. -/
theorem resetStateIsGood : Obligations.ResetStateIsGood :=
  ⟨good_afterReset (by decide), afterReset_xmem _, afterReset_rsp _⟩

/-! ### The frame and the response of a command -/

/-- No command touches the port or the later slots (R30). -/
theorem exec_port_inputs {i : Instr} {s t : State} (h : exec i s = .next t) :
    t.port = s.port ∧ t.inputs = s.inputs := by
  rcases exec_cases h with ⟨_, _, rfl⟩ | ⟨_, _, rfl⟩ | ⟨_, _, _, rfl⟩ | ⟨_, _, _, _, rfl⟩ <;> exact ⟨rfl, rfl⟩

/-- A command that answers a next state has given its response (R34). -/
theorem exec_responds {i : Instr} {s t : State} (h : exec i s = .next t) : t.rsp.isSome = true := by
  rcases exec_cases h with ⟨_, _, rfl⟩ | ⟨_, _, rfl⟩ | ⟨_, _, _, rfl⟩ | ⟨_, _, _, _, rfl⟩ <;> rfl

/-- Settles O10: a reset and an idle slot leave no response, an illegal word and a command give one. -/
theorem oneResponsePerAcceptedCommand : Obligations.OneResponsePerAcceptedCommand := by
  intro s t h
  rcases step_cases h with ⟨ha, rfl | rfl⟩ | ⟨ha, -, rfl⟩ | ⟨ha, i, u, -, hu, rfl⟩
  · simp [ha]
  · simp [ha]
  · simp [ha]
  · simp [ha, exec_responds hu]

theorem transformOf_eq_some {c : Cfg} {i : Instr} {xs ys : List Sample} (h : transformOf c i xs = some ys) :
    (∃ k, i = .bitrev k) ∨ (∃ p k, i = .fftFwd p k) ∨ ∃ p k, i = .fftInv p k := by
  cases i with
  | bitrev k => exact .inl ⟨k, rfl⟩
  | fftFwd p k => exact .inr (.inl ⟨p, k, rfl⟩)
  | fftInv p k => exact .inr (.inr ⟨p, k, rfl⟩)
  | _ => cases h

/-- Settles O50: of the four things a command can do, raising and responding leave the sample memory, and
only `WRX` writes a cell and only the transform commands replace all. -/
theorem onlyFourCommandsWriteTheSampleMemory : Obligations.OnlyFourCommandsWriteTheSampleMemory := by
  intro i s t h
  obtain ⟨hp, hi⟩ := exec_port_inputs h
  refine ⟨exec_cfg h, hp, hi, fun hne => ?_⟩
  rcases exec_cases h with ⟨e, -, rfl⟩ | ⟨a, b, rfl⟩ | ⟨k, rfl, -, -⟩ | ⟨xs, ys, -, hys, -⟩
  · exact absurd (raise_xmem s e) hne
  · exact absurd (respond_xmem s a b) hne
  · exact .inl ⟨k, rfl⟩
  · exact .inr (transformOf_eq_some hys)

/-! ### What a command depends on

A command reads the configuration, the sample memory and the operands it uses, and answers by a change of
the sample memory and the response. So from two states alike in what it reads it gives the same answer, each
with its own port and later slots. -/

/-- `t` with the port and the later slots of `s`. -/
def State.withPortOf (s t : State) : State := { t with port := s.port, inputs := s.inputs }

@[simp] theorem withPortOf_cfg (s t : State) : (s.withPortOf t).cfg = t.cfg := rfl
@[simp] theorem withPortOf_xmem (s t : State) : (s.withPortOf t).xmem = t.xmem := rfl
@[simp] theorem withPortOf_rsp (s t : State) : (s.withPortOf t).rsp = t.rsp := rfl

/-- A change of the next state, where there is one. -/
def mapNext (f : State → State) : Step → Step
  | .next t => .next (f t)
  | .fault r => .fault r
  | .refused r => .refused r

theorem next_withPortOf {s' t t' : State} (h : t' = s'.withPortOf t) :
    (.next t' : Step) = mapNext s'.withPortOf (.next t) :=
  congrArg Host.Outcome.next h

section
variable {s s' : State} (hc : s'.cfg = s.cfg)
include hc

theorem withXmem_respond_withPortOf (m : Memory) (a b : Int) :
    (s'.withXmem m).respond a b = s'.withPortOf ((s.withXmem m).respond a b) := by
  simp only [State.respond, State.withXmem, State.withPortOf, hc]

theorem applyReset_withPortOf : s'.applyReset = s'.withPortOf s.applyReset := by
  simp only [State.applyReset, State.withPortOf, hc]

variable (hm : s'.xmem = s.xmem)
include hm

theorem respond_withPortOf (a b : Int) : s'.respond a b = s'.withPortOf (s.respond a b) := by
  simp only [State.respond, State.withPortOf, hc, hm]

theorem raise_withPortOf (e : ErrCode) : s'.raise e = s'.withPortOf (s.raise e) := by
  simp only [State.raise, State.withPortOf, hc, hm]

theorem idleSlot_withPortOf : s'.idleSlot = s'.withPortOf s.idleSlot := by
  simp only [State.idleSlot, State.withPortOf, hc, hm]

theorem transform_withPortOf (f : List Sample → List Sample) :
    s'.transform f = mapNext s'.withPortOf (s.transform f) := by
  simp only [State.transform, hc, hm]
  split
  · rfl
  · exact next_withPortOf (withXmem_respond_withPortOf hc _ 0 0)

/-- A check that raises an error where it fails. -/
theorem check_withPortOf {x x' : Step} (h : x' = mapNext s'.withPortOf x) (ok : Bool) (e : ErrCode) :
    (if ok then x' else .next (s'.raise e)) = mapNext s'.withPortOf (if ok then x else .next (s.raise e)) := by
  cases ok with
  | true => exact h
  | false => exact next_withPortOf (raise_withPortOf hc hm e)

/-- A command depends on the configuration, the sample memory and the operands it uses alone. -/
theorem exec_withPortOf {i : Instr} (ha : 1 ≤ i.operandCount → s'.opA = s.opA)
    (hb : 2 ≤ i.operandCount → s'.opB = s.opB) : exec i s' = mapNext s'.withPortOf (exec i s) := by
  have respond (a b : Int) : (.next (s'.respond a b) : Step) = mapNext s'.withPortOf (.next (s.respond a b)) :=
    next_withPortOf (respond_withPortOf hc hm a b)
  cases i with
  | add p | sub p | mul p | cmpeq | cmpne | cmplt | cmple | cmpgt | cmpge =>
    simp only [exec, execAdd, execSub, execMul, execCmpeq, execCmpne, execCmplt, execCmple, execCmpgt, execCmpge,
      hc, ha (Nat.le_succ 1), hb le_rfl]
    exact respond _ 0
  | div p =>
    simp only [exec, execDiv, hc, ha (Nat.le_succ 1), hb le_rfl]
    cases aluDiv s.cfg p s.opA s.opB with
    | error e => exact next_withPortOf (raise_withPortOf hc hm e)
    | ok y => exact respond y 0
  | fromint | toint | fromraw =>
    simp only [exec, execFromint, execToint, execFromraw, hc, ha le_rfl]
    exact respond _ 0
  | rdtw k =>
    simp only [exec, execRdtw, State.twIndexOk, hc]
    exact check_withPortOf hc hm (respond _ _) _ _
  | wrx k =>
    simp only [exec, execWrx, State.indexOk, hc, hm, ha (Nat.le_succ 1), hb le_rfl]
    exact check_withPortOf hc hm (next_withPortOf (withXmem_respond_withPortOf hc _ 0 0)) _ _
  | rdx k =>
    simp only [exec, execRdx, State.indexOk, hc, hm]
    refine check_withPortOf hc hm ?_ _ _
    cases Memory.read s.xmem k with
    | some x => exact respond _ _
    | none => rfl
  | bitrev k =>
    simp only [exec, execBitrev, State.lengthOk, hc]
    exact check_withPortOf hc hm (transform_withPortOf hc hm _) _ _
  | fftFwd p k =>
    simp only [exec, execFftFwd, State.lengthOk, hc]
    exact check_withPortOf hc hm (transform_withPortOf hc hm _) _ _
  | fftInv p k =>
    simp only [exec, execFftInv, State.lengthOk, hc]
    refine check_withPortOf hc hm ?_ _ _
    cases s.cfg.inverseDividesByZero with
    | true => exact next_withPortOf (raise_withPortOf hc hm .divByZero)
    | false => exact transform_withPortOf hc hm _

variable (hp : s'.port = s.port)
include hp

theorem runCommand_withPortOf : runCommand s' = mapNext s'.withPortOf (runCommand s) := by
  unfold runCommand
  rw [hp]
  split
  · exact exec_withPortOf hc hm (fun _ => by rw [State.opA, State.opA, hc, hp])
      (fun _ => by rw [State.opB, State.opB, hc, hp])
  · exact next_withPortOf (raise_withPortOf hc hm _)

/-- A slot depends on the configuration, the sample memory and its own signals alone. -/
theorem slot_withPortOf : slot s' = mapNext s'.withPortOf (slot s) := by
  unfold slot
  rw [hp]
  split_ifs
  · exact next_withPortOf (applyReset_withPortOf hc)
  · exact next_withPortOf (applyReset_withPortOf hc)
  · exact runCommand_withPortOf hc hm hp
  · exact next_withPortOf (idleSlot_withPortOf hc hm)

end

/-- Settles O11: the slots differ in the port and the later slots only, and the next slot coming up touches
nothing else. -/
theorem slotOutcomeDependsOnMemoryAndSlotOnly : Obligations.SlotOutcomeDependsOnMemoryAndSlotOnly := by
  intro s s' hc hm hp
  unfold step
  rw [slot_withPortOf hc hm hp]
  cases slot s with
  | next u => simp [mapNext, thenAdvance]
  | fault r => rfl
  | refused r => rfl

/-- Words with the same low `W` bits read as the same operand (R16). -/
theorem sintW_congr {w : Nat} {a b : Word} (h : a.toNat % 2 ^ w = b.toNat % 2 ^ w) : sintW w a = sintW w b :=
  trunc_congr (by exact_mod_cast h)

/-- Settles O12: the operands that count read the same from the other words, and the command reads nothing
else of the port. -/
theorem unusedOperandsAreIgnored : Obligations.UnusedOperandsAreIgnored := by
  intro i s a b ha hb
  rw [exec_withPortOf (s := s) (s' := { s with port := { s.port with cmdOpa := a, cmdOpb := b } }) rfl rfl
    (fun h => sintW_congr (ha h)) (fun h => sintW_congr (hb h))]
  cases h : exec i s with
  | next t =>
    obtain ⟨-, hi⟩ := exec_port_inputs h
    simp [mapNext, State.withPortOf, hi]
  | fault r => rfl
  | refused r => rfl

/-- Settles O43: the checks pass, so each command is its transform, which finds no whole memory to read. -/
theorem transformsFaultOnUnwrittenCells : Obligations.TransformsFaultOnUnwrittenCells := by
  intro p s h
  have fault (f) : s.transform f = .fault .unwrittenCell :=
    transform_of_none s f (readAll_of_not_allWritten h)
  have hlen : s.lengthOk s.cfg.n = true := decide_eq_true rfl
  refine ⟨?_, ?_, fun hz => ?_⟩
  · simp [exec, execBitrev, hlen, fault]
  · simp [exec, execFftFwd, hlen, fault]
  · simp [exec, execFftInv, hlen, fault, Cfg.inverseDividesByZero_eq_false hz]

/-! ### The thirteen ALU commands as the unit function -/

theorem exec_div_eq_alu (s : State) (p : Policy) :
    exec (.div p) s = .next (if (alu s.cfg .div p s.opA s.opB).2 then s.raise .divByZero
      else s.respond (alu s.cfg .div p s.opA s.opB).1 0) := by
  by_cases hb : s.opB = 0
  · simp [exec, execDiv, alu, aluDiv, hb]
  · simp [exec, execDiv, alu, aluDiv, hb]

/-- An ALU command is the unit on its two operands: a division by zero is raised, a value is responded
(R37, R113). -/
theorem exec_eq_alu {s : State} {p : Policy} {i : Instr} {op : AluOp}
    (h : (i, op) ∈ [(Instr.add p, AluOp.add), (.sub p, .sub), (.mul p, .mul), (.div p, .div),
      (.cmpeq, .eq), (.cmpne, .ne), (.cmplt, .lt), (.cmple, .le), (.cmpgt, .gt), (.cmpge, .ge),
      (.fromint, .fromInt), (.toint, .toInt), (.fromraw, .fromRaw)]) :
    exec i s = .next (if (alu s.cfg op p s.opA s.opB).2 then s.raise .divByZero
      else s.respond (alu s.cfg op p s.opA s.opB).1 0) := by
  simp only [List.mem_cons, Prod.mk.injEq, List.not_mem_nil, or_false] at h
  rcases h with ⟨rfl, rfl⟩ | ⟨rfl, rfl⟩ | ⟨rfl, rfl⟩ | ⟨rfl, rfl⟩ | ⟨rfl, rfl⟩ | ⟨rfl, rfl⟩ | ⟨rfl, rfl⟩ |
    ⟨rfl, rfl⟩ | ⟨rfl, rfl⟩ | ⟨rfl, rfl⟩ | ⟨rfl, rfl⟩ | ⟨rfl, rfl⟩ | ⟨rfl, rfl⟩
  exacts [rfl, rfl, rfl, exec_div_eq_alu s p, rfl, rfl, rfl, rfl, rfl, rfl, rfl, rfl, rfl]

/-- Settles O23: the unit's answer as response words, its value being a raw value. -/
theorem aluUnitIsWhatTheCommandsAnswer : Obligations.AluUnitIsWhatTheCommandsAnswer := by
  intro s p i op h
  refine ⟨_, exec_eq_alu h, ?_⟩
  split_ifs
  · exact answered_raise s _
  · exact answered_respond_same s (alu_inRange s.cfg op p _ (opA_inRange s)) s.cfg.zero_inRange

end Machine

end Sys2Proof

/-! PROOFS. The sample memory through the command port: the statement of 20_memory.md. -/

namespace Sys2Proof

/-! ### Words with a free immediate (formats IX and TN) -/

theorem decodeIX_packWord (mk : Nat → Instr) {opc imm : Nat} (ho : opc < 256) (hi : imm < 2 ^ 21) :
    decodeIX mk (packWord opc 0 imm) = .ok (mk imm) := by
  have hp : policyOf (packWord opc 0 imm) = .saturate := policyOf_packWord .saturate ho hi
  simp [decodeIX, rsvOf_packWord ho Nat.zero_lt_two hi, hp, immOf_packWord ho Nat.zero_lt_two hi]

theorem decode_encode_wrx {k : Nat} (hk : k < 2 ^ 21) : decode (encode (.wrx k)) = .ok (.wrx k) := by
  have ho : opcOf (encode (.wrx k)) = 0x40 := opcOf_packWord (by decide) Nat.zero_lt_two hk
  rw [decode, ho]
  exact decodeIX_packWord .wrx (by decide) hk

theorem decode_encode_rdx {k : Nat} (hk : k < 2 ^ 21) : decode (encode (.rdx k)) = .ok (.rdx k) := by
  have ho : opcOf (encode (.rdx k)) = 0x41 := opcOf_packWord (by decide) Nat.zero_lt_two hk
  rw [decode, ho]
  exact decodeIX_packWord .rdx (by decide) hk

/-- An index of a configuration that passes the checks fits the field `IMM` (R12, R63). -/
theorem Cfg.index_lt_of_valid {c : Cfg} (hv : c.valid = true) {k : Nat} (hk : k < c.n) : k < 2 ^ 21 := by
  obtain ⟨-, -, -, hn, -⟩ := c.valid_iff_constructible.mp hv
  have hle : c.n ≤ 2 ^ 20 := ((isPowerOfTwo_and_le_iff c.n).mpr hn).2
  omega

namespace Machine

/-! ### Words in and out -/

/-- The result word is the result modulo `2^W` (R64), with nothing in the bits above `W`. -/
theorem toWord_toNat (c : Cfg) (r : Int) : ((toWord c.w r).toNat : Int) = r % ((2 ^ c.w : Nat) : Int) := by
  have h0 := Int.emod_nonneg r (ne_of_gt (two_pow_pos c.w))
  have h1 := Int.emod_lt_of_pos r (two_pow_pos c.w)
  have h64 : (2 : Nat) ^ c.w ≤ 2 ^ 64 := Nat.pow_le_pow_right (by decide) c.w_le
  rw [toWord, BitVec.toNat_ofNat, Nat.mod_eq_of_lt (by omega), Int.toNat_of_nonneg h0]

/-- Reading an operand and driving it as a result gives back the `W` bits of its word. -/
theorem toWord_sintW (c : Cfg) (b : Word) : (toWord c.w (sintW c.w b)).toNat = b.toNat % 2 ^ c.w := by
  have h := (toWord_toNat c (sintW c.w b)).trans (trunc_emod c.w b.toNat)
  exact_mod_cast h

/-! ### The two commands in range, and a step that runs a command -/

theorem exec_wrx_of_lt {s : State} {k : Nat} (hk : k < s.cfg.n) :
    exec (.wrx k) s = .next ((s.withXmem (Memory.write s.xmem k ⟨s.opA, s.opB⟩)).respond 0 0) :=
  if_pos (decide_eq_true hk)

theorem exec_rdx_of_read {s : State} {k : Nat} {x : Sample} (hk : k < s.cfg.n)
    (hx : Memory.read s.xmem k = some x) : exec (.rdx k) s = .next (s.respond x.re x.im) := by
  simp [exec, execRdx, State.indexOk, hk, hx]

/-- An accepted command that answers a next state is the step, and then the next slot at the port (R35). -/
theorem step_of_exec {s u : State} {i : Instr} (ha : s.port.accepts = true) (hd : decode s.port.cmdWord = .ok i)
    (hu : exec i s = .next u) : step s = .next u.advance := by
  simp [step, slot_of_accepts ha, runCommand, hd, hu, thenAdvance]

/-! ### A write and then a read -/

/-- Settles O32: the first step leaves the operand pair in cell `k` and the `RDX` at the port, the second
reads that pair back, and a word read and driven again keeps its `W` bits. -/
theorem writeThenReadReturnsTheWords : Obligations.WriteThenReadReturnsTheWords := by
  intro s k d ds hv hk ha hw hi hda hdw
  have hk' : k < 2 ^ 21 := Cfg.index_lt_of_valid hv hk
  let t := ((s.withXmem (Memory.write s.xmem k ⟨s.opA, s.opB⟩)).respond 0 0).advance
  have hwrite : step s = .next t := step_of_exec ha (hw ▸ decode_encode_wrx hk') (exec_wrx_of_lt hk)
  have hcfg : t.cfg = s.cfg := by simp [t]
  have hport : t.port = d := by simp [t, advance_port, hi]
  have hcell : Memory.read t.xmem k = some ⟨s.opA, s.opB⟩ := by simp [t]
  have hread : step t = .next (t.respond s.opA s.opB).advance :=
    step_of_exec (hport ▸ hda) (by rw [hport, hdw, decode_encode_rdx hk']) (exec_rdx_of_read (hcfg ▸ hk) hcell)
  refine ⟨t, _, _, hwrite, hread, advance_rsp _, rfl, ?_, ?_⟩
  · rw [hcfg]
    exact toWord_sintW s.cfg s.port.cmdOpa
  · rw [hcfg]
    exact toWord_sintW s.cfg s.port.cmdOpb

end Machine

end Sys2Proof

/-! PROOFS. The command word, the operand words and the assembler: the statements of 30_encoding.md. -/

namespace Sys2Proof

open Machine

/-! ### From a command to its word and back (R61 to R65) -/

theorem decodeAP_packWord (mk : Policy → Instr) (p : Policy) {opc : Nat} (ho : opc < 256) :
    decodeAP mk (packWord opc p.bit 0) = .ok (mk p) := by
  have hp := policy_bit_lt p
  simp [decodeAP, rsvOf_packWord ho hp, policyOf_packWord p ho, immOf_packWord ho hp]

theorem decodeAN_packWord (i : Instr) {opc : Nat} (ho : opc < 256) : decodeAN i (packWord opc 0 0) = .ok i := by
  have hp : policyOf (packWord opc 0 0) = .saturate := policyOf_packWord .saturate ho (by decide)
  simp [decodeAN, rsvOf_packWord ho, hp, immOf_packWord ho]

theorem decodeTP_packWord (mk : Policy → Nat → Instr) (p : Policy) {opc imm : Nat} (ho : opc < 256)
    (hi : imm < 2 ^ 21) : decodeTP mk (packWord opc p.bit imm) = .ok (mk p imm) := by
  have hp := policy_bit_lt p
  simp [decodeTP, rsvOf_packWord ho hp hi, policyOf_packWord p ho hi, immOf_packWord ho hp hi]

theorem Instr.wellFormed_of_imm {i : Instr} {k : Nat} (hi : i.imm? = some k) (hk : k < 2 ^ 21) :
    i.wellFormed = true := by
  simpa [Instr.wellFormed, hi] using hk

theorem Instr.imm_lt_of_wellFormed {i : Instr} {k : Nat} (hi : i.imm? = some k) (hw : i.wellFormed = true) :
    k < 2 ^ 21 := by
  simpa [Instr.wellFormed, hi] using hw

/-- Decoding undoes encoding, format by format. -/
theorem decode_encode {i : Instr} (hw : i.wellFormed = true) : decode (encode i) = .ok i := by
  cases i with
  | add p | sub p | mul p | div p =>
    rw [encode, decode, opcOf_packWord (by decide) (policy_bit_lt p) (by decide)]
    simp only
    exact decodeAP_packWord _ p (by decide)
  | cmpeq | cmpne | cmplt | cmple | cmpgt | cmpge | fromint | toint | fromraw =>
    rw [encode, decode, opcOf_packWord (by decide) Nat.zero_lt_two (by decide)]
    simp only
    exact decodeAN_packWord _ (by decide)
  | rdtw k | wrx k | rdx k | bitrev k =>
    have hk := Instr.imm_lt_of_wellFormed rfl hw
    rw [encode, decode, opcOf_packWord (by decide) Nat.zero_lt_two hk]
    simp only
    exact decodeIX_packWord _ (by decide) hk
  | fftFwd p k | fftInv p k =>
    have hk := Instr.imm_lt_of_wellFormed rfl hw
    rw [encode, decode, opcOf_packWord (by decide) (policy_bit_lt p) hk]
    simp only
    exact decodeTP_packWord _ p (by decide) hk

/-- Settles O2, command by command. -/
theorem everyCommandRoundTrips : Obligations.EveryCommandRoundTrips := fun _ hw => decode_encode hw

/-! ### From a word to its command and back -/

theorem opcOf_lt (w : BitVec 32) : opcOf w < 2 ^ 8 := by simp only [opcOf]; exact BitVec.isLt _
theorem rsvOf_lt (w : BitVec 32) : rsvOf w < 2 ^ 2 := by simp only [rsvOf]; exact BitVec.isLt _
theorem immOf_lt (w : BitVec 32) : immOf w < 2 ^ 21 := by simp only [immOf]; exact BitVec.isLt _

theorem bit_policyOf (w : BitVec 32) : (policyOf w).bit = w.toNat / 8388608 % 2 := by
  rw [policyOf_eq]
  split <;> simp only [Policy.bit] <;> omega

/-- The four fields of R61 are the whole word. -/
theorem eq_of_fields {v w : BitVec 32} (ho : opcOf v = opcOf w) (hp : policyOf v = policyOf w)
    (hr : rsvOf v = rsvOf w) (hi : immOf v = immOf w) : v = w := by
  have hb := congrArg Policy.bit hp
  rw [bit_policyOf, bit_policyOf] at hb
  rw [opcOf_eq, opcOf_eq] at ho
  rw [rsvOf_eq, rsvOf_eq] at hr
  rw [immOf_eq, immOf_eq] at hi
  apply BitVec.eq_of_toNat_eq
  omega

/-- A word with `RSV = 00` is packed from its other fields. -/
theorem packWord_fields {w : BitVec 32} (hr : rsvOf w = 0) :
    packWord (opcOf w) (policyOf w).bit (immOf w) = w :=
  have ho := opcOf_lt w
  have hp := policy_bit_lt (policyOf w)
  have hi := immOf_lt w
  eq_of_fields (opcOf_packWord ho hp hi) (policyOf_packWord _ ho hi) ((rsvOf_packWord ho hp hi).trans hr.symm)
    (immOf_packWord ho hp hi)

section
variable {w : BitVec 32} {i : Instr} {opc : Nat} (ho : opcOf w = opc)
include ho

theorem encode_of_decodeAP {mk : Policy → Instr}
    (hmk : ∀ p, (mk p).wellFormed = true ∧ encode (mk p) = packWord opc p.bit 0) (h : decodeAP mk w = .ok i) :
    i.wellFormed = true ∧ encode i = w := by
  unfold decodeAP at h
  split_ifs at h with hr hi
  cases h
  rw [not_not] at hr hi
  refine ⟨(hmk _).1, ?_⟩
  rw [(hmk _).2, ← ho, ← hi, packWord_fields hr]

theorem encode_of_decodeAN {j : Instr} (hj : j.wellFormed = true ∧ encode j = packWord opc 0 0)
    (h : decodeAN j w = .ok i) : i.wellFormed = true ∧ encode i = w := by
  unfold decodeAN at h
  split_ifs at h with hr hp hi
  cases h
  rw [not_not] at hr hp hi
  refine ⟨hj.1, ?_⟩
  have hw := packWord_fields hr
  rw [ho, hp, hi] at hw
  exact hj.2.trans hw

theorem encode_of_decodeIX {mk : Nat → Instr}
    (hmk : ∀ k, (mk k).imm? = some k ∧ encode (mk k) = packWord opc 0 k) (h : decodeIX mk w = .ok i) :
    i.wellFormed = true ∧ encode i = w := by
  unfold decodeIX at h
  split_ifs at h with hr hp
  cases h
  rw [not_not] at hr hp
  refine ⟨Instr.wellFormed_of_imm (hmk _).1 (immOf_lt w), ?_⟩
  have hw := packWord_fields hr
  rw [ho, hp] at hw
  exact (hmk _).2.trans hw

theorem encode_of_decodeTP {mk : Policy → Nat → Instr}
    (hmk : ∀ p k, (mk p k).imm? = some k ∧ encode (mk p k) = packWord opc p.bit k) (h : decodeTP mk w = .ok i) :
    i.wellFormed = true ∧ encode i = w := by
  unfold decodeTP at h
  split_ifs at h with hr
  cases h
  rw [not_not] at hr
  refine ⟨Instr.wellFormed_of_imm (hmk _ _).1 (immOf_lt w), ?_⟩
  rw [(hmk _ _).2, ← ho, packWord_fields hr]

end

/-- Settles O3: the row the decoder takes tells the format, and the fields that format fixes are as the
encoder packs them. -/
theorem decodedWordIsItsEncoding : Obligations.DecodedWordIsItsEncoding := by
  intro w i h
  unfold decode at h
  split at h <;> rename_i ho
  -- the rows of R65 in their order: AP, AN, IX and TN, TP, then every other opcode
  iterate 4 exact encode_of_decodeAP ho (fun _ => ⟨rfl, rfl⟩) h
  iterate 9 exact encode_of_decodeAN ho ⟨rfl, rfl⟩ h
  iterate 4 exact encode_of_decodeIX ho (fun _ => ⟨rfl, rfl⟩) h
  iterate 2 exact encode_of_decodeTP ho (fun _ _ => ⟨rfl, rfl⟩) h
  cases h

/-! ### The words that are no command (R67) -/

/-- The opcodes of the rows that meet a condition. -/
def opcodesWhere (f : OpcodeRow → Bool) : List Nat := (opcodeTable.filter f).map fun r => opcOf r.pattern

/-- The row's mask fixes `P` (formats AN, IX, TN of R62). -/
def OpcodeRow.fixesPolicy (r : OpcodeRow) : Bool := r.mask.getLsbD 23

/-- The row's mask fixes `IMM` (formats AP, AN of R62). -/
def OpcodeRow.fixesImm (r : OpcodeRow) : Bool := r.mask.getLsbD 0

theorem opcodes_all : opcodesWhere (fun _ => true) = [0x01, 0x02, 0x03, 0x04, 0x10, 0x11, 0x12, 0x13, 0x14, 0x15,
    0x20, 0x21, 0x22, 0x30, 0x40, 0x41, 0x50, 0x51, 0x52] := by decide

theorem opcodes_fixesPolicy : opcodesWhere OpcodeRow.fixesPolicy = [0x10, 0x11, 0x12, 0x13, 0x14, 0x15,
    0x20, 0x21, 0x22, 0x30, 0x40, 0x41, 0x50] := by decide

theorem opcodes_fixesImm : opcodesWhere OpcodeRow.fixesImm = [0x01, 0x02, 0x03, 0x04,
    0x10, 0x11, 0x12, 0x13, 0x14, 0x15, 0x20, 0x21, 0x22] := by decide

theorem policyOf_ne_saturate_iff (w : BitVec 32) : policyOf w ≠ .saturate ↔ w.toNat / 2 ^ 23 % 2 = 1 := by
  rw [policyOf_eq]; split_ifs <;> simp [*]

/-- The words of R67 in terms of the fields and of what the rows of the table fix. -/
theorem illegalWord_iff (w : BitVec 32) : IllegalWord w ↔
    opcOf w ∉ opcodesWhere (fun _ => true) ∨ rsvOf w ≠ 0 ∨
    (policyOf w ≠ .saturate ∧ opcOf w ∈ opcodesWhere OpcodeRow.fixesPolicy) ∨
    (immOf w ≠ 0 ∧ opcOf w ∈ opcodesWhere OpcodeRow.fixesImm) := by
  rw [opcodes_all, opcodes_fixesPolicy, opcodes_fixesImm, policyOf_ne_saturate_iff, opcOf_eq, rsvOf_eq, immOf_eq]
  simp only [IllegalWord, Nat.reducePow]

theorem decodeAP_error_iff (mk : Policy → Instr) (w : BitVec 32) :
    (∃ e, decodeAP mk w = .error e) ↔ rsvOf w ≠ 0 ∨ immOf w ≠ 0 := by
  unfold decodeAP; split_ifs <;> simp_all

theorem decodeAN_error_iff (i : Instr) (w : BitVec 32) :
    (∃ e, decodeAN i w = .error e) ↔ rsvOf w ≠ 0 ∨ policyOf w ≠ .saturate ∨ immOf w ≠ 0 := by
  unfold decodeAN; split_ifs <;> simp_all

theorem decodeIX_error_iff (mk : Nat → Instr) (w : BitVec 32) :
    (∃ e, decodeIX mk w = .error e) ↔ rsvOf w ≠ 0 ∨ policyOf w ≠ .saturate := by
  unfold decodeIX; split_ifs <;> simp_all

theorem decodeTP_error_iff (mk : Policy → Nat → Instr) (w : BitVec 32) :
    (∃ e, decodeTP mk w = .error e) ↔ rsvOf w ≠ 0 := by
  unfold decodeTP; split_ifs <;> simp_all

/-- Settles O5: the opcode tells the format, and each format refuses what its row fixes. -/
theorem illegalWordsExactly : Obligations.IllegalWordsExactly := by
  intro w
  rw [illegalWord_iff, opcodes_all, opcodes_fixesPolicy, opcodes_fixesImm]
  unfold decode
  split <;> rename_i ho
  -- the rows of R65 in their order: AP, AN, IX and TN, TP, then every other opcode
  iterate 4 simp [decodeAP_error_iff, ho]
  iterate 9 simp [decodeAN_error_iff, ho]
  iterate 4 simp [decodeIX_error_iff, ho]
  iterate 2 simp [decodeTP_error_iff, ho]
  simp_all

/-! ### The rows of the opcode table (R62, R65) -/

theorem opcOf_and (w m : BitVec 32) : opcOf (w &&& m) = opcOf w &&& opcOf m := by
  simp only [opcOf, BitVec.extractLsb'_and, BitVec.toNat_and]

theorem rsvOf_and (w m : BitVec 32) : rsvOf (w &&& m) = rsvOf w &&& rsvOf m := by
  simp only [rsvOf, BitVec.extractLsb'_and, BitVec.toNat_and]

theorem immOf_and (w m : BitVec 32) : immOf (w &&& m) = immOf w &&& immOf m := by
  simp only [immOf, BitVec.extractLsb'_and, BitVec.toNat_and]

theorem policyOf_and (w m : BitVec 32) :
    policyOf (w &&& m) = if m.getLsbD 23 then policyOf w else .saturate := by
  cases h : m.getLsbD 23 <;> simp [policyOf, h, -BitVec.getLsbD_eq_getElem]

/-- Every row fixes `OPC` and `RSV`, and `IMM` whole or not at all; the fields it fixes are 0 but for `OPC`. -/
theorem opcodeTable_shape : ∀ r ∈ opcodeTable,
    opcOf r.mask = 2 ^ 8 - 1 ∧ rsvOf r.mask = 2 ^ 2 - 1 ∧
    immOf r.mask = (if r.fixesImm then 2 ^ 21 - 1 else 0) ∧
    policyOf r.pattern = .saturate ∧ rsvOf r.pattern = 0 ∧ immOf r.pattern = 0 := by
  decide

/-- A row selects the words with its opcode, `RSV = 00`, and 0 in the other fields it fixes. -/
theorem selects_iff {r : OpcodeRow} (hr : r ∈ opcodeTable) (w : BitVec 32) : r.selects w = true ↔
    opcOf w = opcOf r.pattern ∧ rsvOf w = 0 ∧ (r.fixesPolicy = true → policyOf w = .saturate) ∧
      (r.fixesImm = true → immOf w = 0) := by
  obtain ⟨ho, hv, hi, hp', hv', hi'⟩ := opcodeTable_shape r hr
  have hopc : opcOf (w &&& r.mask) = opcOf w := by
    rw [opcOf_and, ho, Nat.and_two_pow_sub_one_of_lt_two_pow (opcOf_lt w)]
  have hrsv : rsvOf (w &&& r.mask) = rsvOf w := by
    rw [rsvOf_and, hv, Nat.and_two_pow_sub_one_of_lt_two_pow (rsvOf_lt w)]
  have hpol : policyOf (w &&& r.mask) = if r.fixesPolicy then policyOf w else .saturate := policyOf_and w r.mask
  have himm : immOf (w &&& r.mask) = if r.fixesImm then immOf w else 0 := by
    rw [immOf_and, hi]
    split_ifs
    · exact Nat.and_two_pow_sub_one_of_lt_two_pow (immOf_lt w)
    · exact Nat.and_zero _
  have hsel : r.selects w = true ↔ w &&& r.mask = r.pattern := decide_eq_true_iff
  rw [hsel]
  constructor
  · intro h
    rw [h] at hopc hrsv hpol himm
    refine ⟨hopc.symm, hrsv.symm.trans hv', fun hf => ?_, fun hf => ?_⟩
    · rw [if_pos hf] at hpol; exact hpol.symm.trans hp'
    · rw [if_pos hf] at himm; exact himm.symm.trans hi'
  · rintro ⟨h1, h2, h3, h4⟩
    apply eq_of_fields
    · exact hopc.trans h1
    · rw [hpol, hp']; split_ifs with hf; exacts [h3 hf, rfl]
    · rw [hrsv, h2, hv']
    · rw [himm, hi']; split_ifs with hf; exacts [h4 hf, rfl]

theorem opcodes_nodup : (opcodeTable.map fun r => opcOf r.pattern).Nodup := by decide

theorem mnemonics_nodup : (opcodeTable.map fun r => r.mnemonic).Nodup := by decide

/-- A row of the table is known by its opcode. -/
theorem opcOf_mem_opcodesWhere_iff {r : OpcodeRow} (hr : r ∈ opcodeTable) (f : OpcodeRow → Bool) :
    opcOf r.pattern ∈ opcodesWhere f ↔ f r = true := by
  constructor
  · intro h
    obtain ⟨r', hr', ho⟩ := List.mem_map.mp h
    obtain ⟨hr', hf⟩ := List.mem_filter.mp hr'
    exact List.inj_on_of_nodup_map opcodes_nodup hr' hr ho ▸ hf
  · intro hf
    exact List.mem_map_of_mem (List.mem_filter.mpr ⟨hr, hf⟩)

/-- A word of R67 selects no row: it breaks what the row with its opcode fixes. -/
theorem not_selects_of_illegalWord {w : BitVec 32} (h : IllegalWord w) {r : OpcodeRow} (hr : r ∈ opcodeTable) :
    ¬ r.selects w = true := by
  rw [selects_iff hr]
  rintro ⟨ho, hv, hp, hi⟩
  rw [illegalWord_iff, ho] at h
  simp only [opcOf_mem_opcodesWhere_iff hr] at h
  rcases h with h | h | ⟨h, hf⟩ | ⟨h, hf⟩
  · exact h trivial
  · exact h hv
  · exact h (hp hf)
  · exact h (hi hf)

open Laws in
theorem encode_selects_own_row (i : Instr) : OpcodeRow.Statement i := by
  cases i
  exacts [OpcodeRow.add _, OpcodeRow.sub _, OpcodeRow.mul _, OpcodeRow.div _, OpcodeRow.cmpeq, OpcodeRow.cmpne,
    OpcodeRow.cmplt, OpcodeRow.cmple, OpcodeRow.cmpgt, OpcodeRow.cmpge, OpcodeRow.fromint, OpcodeRow.toint,
    OpcodeRow.fromraw, OpcodeRow.rdtw _, OpcodeRow.wrx _, OpcodeRow.rdx _, OpcodeRow.bitrev _, OpcodeRow.fftFwd _ _,
    OpcodeRow.fftInv _ _]

/-- The rows with the mnemonic of `i` that a word of `i` selects: its own. -/
theorem selects_iff_mnemonic {w : BitVec 32} {i : Instr} (h : decode w = .ok i) {r : OpcodeRow}
    (hr : r ∈ opcodeTable) : r.selects w = true ↔ r.mnemonic = i.mnemonic := by
  obtain ⟨hw, rfl⟩ := decodedWordIsItsEncoding w i h
  obtain ⟨r', hr', hm, hs⟩ := encode_selects_own_row i hw
  constructor
  · intro hsel
    have ho := ((selects_iff hr _).mp hsel).1.symm.trans ((selects_iff hr' _).mp hs).1
    rw [List.inj_on_of_nodup_map opcodes_nodup hr hr' ho, hm]
  · intro hmn
    rwa [List.inj_on_of_nodup_map mnemonics_nodup hr hr' (hmn.trans hm.symm)]

/-- Settles O4: a word of `i` selects the rows with the mnemonic of `i`, of which there is one; a word that is no
command selects none. -/
theorem decoderSelectsTheTableRow : Obligations.DecoderSelectsTheTableRow := by
  intro w
  cases hd : decode w with
  | error e =>
    have hill : IllegalWord w := (illegalWordsExactly w).mp ⟨e, hd⟩
    simp [List.filter_eq_nil_iff.mpr fun r hr => not_selects_of_illegalWord hill hr]
  | ok i =>
    obtain ⟨hw, rfl⟩ := decodedWordIsItsEncoding w i hd
    obtain ⟨r, hr, hm, -⟩ := encode_selects_own_row i hw
    have hmem : i.mnemonic ∈ opcodeTable.map fun r => r.mnemonic := hm ▸ List.mem_map_of_mem hr
    have hf : (opcodeTable.filter fun r => r.selects (encode i)) =
        opcodeTable.filter ((fun m => m == i.mnemonic) ∘ fun r => r.mnemonic) :=
      List.filter_congr fun r hr => by
        rw [Bool.eq_iff_iff, selects_iff_mnemonic hd hr]
        exact beq_iff_eq.symm
    rw [hf, ← List.filter_map, List.filter_beq, List.count_eq_one_of_mem mnemonics_nodup hmem]
    rfl

/-! ### The step on a word of the port (R35, R70) -/

namespace Machine

theorem advance_eq (s : State) : s.advance = { s with port := s.inputs.headD Port.idle, inputs := s.inputs.tail } := by
  unfold State.advance
  split <;> simp [*]

/-- Settles O6: the slot raises `ILLEGAL_COMMAND`, which leaves all but the response, and then the next slot
comes to the port. -/
theorem illegalWordIsAnswered : Obligations.IllegalWordIsAnswered := by
  intro s ha hw
  obtain ⟨e, he⟩ := (illegalWordsExactly _).mpr hw
  have hstep : step s = .next (s.raise .illegalCommand).advance := by
    simp [step, slot_of_accepts ha, runCommand, he, thenAdvance]
  refine ⟨_, hstep, ?_, ?_, ?_, ?_, ?_⟩
  · rw [advance_rsp, raise_rsp]
  · rw [advance_cfg, raise_cfg]
  · rw [advance_xmem, raise_xmem]
  · rw [advance_port, raise_inputs]
  · rw [advance_inputs, raise_inputs]

/-- Settles O7: the slot runs the command, and the next slot coming up replaces the port and the later slots. -/
theorem stepRunsTheDecodedCommand : Obligations.StepRunsTheDecodedCommand := by
  intro s i ha hd
  have hstep : step s = thenAdvance (exec i s) := by
    simp only [step, slot_of_accepts ha, runCommand, hd]
  rw [hstep]
  cases exec i s with
  | next t => rw [thenAdvance, advance_eq]
  | fault r => rfl
  | refused r => rfl

end Machine

/-- Settles O1, by evaluation of the decoder on the fifteen words. -/
theorem specWordsDecode : Obligations.SpecWordsDecode := by
  unfold Obligations.SpecWordsDecode
  decide

/-! ### The operand and result words (R64) -/

namespace Machine

/-- An operand is congruent to its word modulo `2^W`. -/
theorem dvd_sintW_sub (w : Nat) (b : Word) : (2 ^ w : Int) ∣ sintW w b - b.toNat := by
  have h : (b.toNat : Int) ≡ sintW w b [ZMOD ((2 ^ w : Nat) : Int)] := (trunc_emod w b.toNat).symm
  exact_mod_cast h.dvd

theorem sintW_bounds (c : Cfg) (b : Word) : -2 ^ (c.w - 1) ≤ sintW c.w b ∧ sintW c.w b < 2 ^ (c.w - 1) := by
  obtain ⟨h0, h1⟩ := (c.inRange_iff _).mp (sintW_inRange c b)
  simp only [Cfg.min, Cfg.max, Nat.cast_pow, Nat.cast_ofNat] at h0 h1
  exact ⟨h0, Int.lt_of_le_sub_one h1⟩

/-- Settles O13: an operand is the truncation of its word, and a raw value is its own truncation. -/
theorem operandsAreSignedWords : Obligations.OperandsAreSignedWords := by
  intro s
  obtain ⟨ha0, ha1⟩ := sintW_bounds s.cfg s.port.cmdOpa
  obtain ⟨hb0, hb1⟩ := sintW_bounds s.cfg s.port.cmdOpb
  refine ⟨dvd_sintW_sub _ _, dvd_sintW_sub _ _, ha0, ha1, hb0, hb1, fun r h0 h1 => ?_⟩
  exact ⟨sintW_toWord s.cfg ((s.cfg.inRange_iff r).mpr ⟨h0, h1⟩), toWord_lt s.cfg r⟩

end Machine

/-! ### The assembler (R72, R73) -/

/-- What assembles: a line that names a well-formed command, with as many operands as it uses, each a raw
value. The operands it leaves out are sent as 0. -/
theorem assemble_eq_some_iff {c : Cfg} {l : AsmLine} {h : HostCommand} : assemble c l = some h ↔
    ∃ i vs, l.expand.instr c = some i ∧ l.expand.operands.mapM (AsmNumber.value c) = some vs ∧
      i.wellFormed = true ∧ vs.length = i.operandCount ∧
      h = ⟨encode i, toWord c.w (vs.getD 0 0), toWord c.w (vs.getD 1 0)⟩ := by
  unfold assemble
  dsimp only
  constructor
  · intro ha
    split at ha
    · rename_i i vs hi hvs
      split_ifs at ha with hw
      cases ha
      exact ⟨i, vs, hi, hvs, hw.1, hw.2, rfl⟩
    · cases ha
  · rintro ⟨i, vs, hi, hvs, hw, hl, rfl⟩
    simp [hi, hvs, hw, hl]

theorem Machine.toWord_zero (w : Nat) : toWord w 0 = 0 := by simp [toWord]

theorem getD_inRange {c : Cfg} {vs : List Int} (h : ∀ v ∈ vs, c.inRange v = true) (k : Nat) :
    c.inRange (vs.getD k 0) = true := by
  rcases getD_mem_or vs k 0 with hm | hz
  · exact h _ hm
  · rw [hz]; exact c.zero_inRange

theorem Instr.operandCount_le (i : Instr) : i.operandCount ≤ 2 := by
  cases i <;> simp [Instr.operandCount]

/-- The line written for a command is no pseudo-command and names the command. -/
theorem Instr.line_spec (c : Cfg) (i : Instr) (xs : List AsmNumber) :
    (i.line xs).expand.instr c = some i ∧ (i.line xs).expand.operands = xs := by
  cases i <;> exact ⟨rfl, rfl⟩

theorem AsmNumber.values_dec {c : Cfg} : ∀ {vs : List Int}, (∀ v ∈ vs, c.inRange v = true) →
    (vs.map AsmNumber.dec).mapM (AsmNumber.value c) = some vs
  | [], _ => rfl
  | v :: vs, h => by
    have hv : (AsmNumber.dec v).value c = some v := if_pos (h v List.mem_cons_self)
    have hvs := AsmNumber.values_dec fun u hu => h u (List.mem_cons_of_mem v hu)
    simp [hv, hvs]

/-- A line that names a command with its operands assembles to it, and the words read back. -/
theorem assemble_reads_back {c : Cfg} {l : AsmLine} {i : Instr} {vs : List Int} (hi : l.expand.instr c = some i)
    (hw : i.wellFormed = true) (hvs : l.expand.operands.mapM (AsmNumber.value c) = some vs)
    (hl : vs.length = i.operandCount) :
    ∃ h, assemble c l = some h ∧ h.word = encode i ∧
      sintW c.w h.opa = vs.getD 0 0 ∧ sintW c.w h.opb = vs.getD 1 0 ∧
      h.opa.toNat < 2 ^ c.w ∧ h.opb.toNat < 2 ^ c.w :=
  have hv := getD_inRange (AsmNumber.values_inRange hvs)
  ⟨_, assemble_eq_some_iff.mpr ⟨i, vs, hi, hvs, hw, hl, rfl⟩, rfl, sintW_toWord c (hv 0), sintW_toWord c (hv 1),
    toWord_lt c _, toWord_lt c _⟩

/-- The word of an assembled line decodes to the command the line names. -/
theorem assembled_decodes {c : Cfg} {l : AsmLine} {h : HostCommand} (ha : assemble c l = some h) :
    ∃ i, decode h.word = .ok i ∧ l.expand.instr c = some i ∧
      (i.operandCount ≤ 1 → h.opb = 0) ∧ (i.operandCount = 0 → h.opa = 0) := by
  obtain ⟨i, vs, hi, -, hw, hl, rfl⟩ := assemble_eq_some_iff.mp ha
  refine ⟨i, decode_encode hw, hi, fun h1 => ?_, fun h0 => ?_⟩
  · dsimp only
    rw [List.getD_eq_default _ _ (hl.trans_le h1), toWord_zero]
  · dsimp only
    rw [List.getD_eq_default _ _ (hl.trans h0).le, toWord_zero]

/-- Every well-formed command has a line that assembles to it. -/
theorem line_assembles {c : Cfg} {i : Instr} {a b : Int} (hw : i.wellFormed = true) (ha : c.inRange a = true)
    (hb : c.inRange b = true) :
    ∃ h, assemble c (i.line ([.dec a, .dec b].take i.operandCount)) = some h ∧ h.word = encode i ∧
      (1 ≤ i.operandCount → sintW c.w h.opa = a) ∧ (2 ≤ i.operandCount → sintW c.w h.opb = b) := by
  have hr : ∀ v ∈ [a, b].take i.operandCount, c.inRange v = true := by
    intro v hv
    rcases List.mem_pair.mp (List.mem_of_mem_take hv) with rfl | rfl
    exacts [ha, hb]
  obtain ⟨hi, hops⟩ := i.line_spec c ([.dec a, .dec b].take i.operandCount)
  have hvs := AsmNumber.values_dec hr
  rw [List.map_take, List.map_cons, List.map_cons, List.map_nil, ← hops] at hvs
  have hl : ([a, b].take i.operandCount).length = i.operandCount :=
    List.length_take_of_le i.operandCount_le
  obtain ⟨h, has, hword, hA, hB, -, -⟩ := assemble_reads_back hi hw hvs hl
  refine ⟨h, has, hword, fun h1 => hA.trans ?_, fun h2 => hB.trans ?_⟩
  · simp [Nat.lt_of_succ_le h1]
  · simp [Nat.lt_of_succ_le h2]

/-- Settles O60: the pseudo-commands and their expansions are the same line once expanded. -/
theorem assembledLinesAreCommands : Obligations.AssembledLinesAreCommands :=
  ⟨fun _ _ _ => assembled_decodes, fun _ _ _ _ => assemble_reads_back, fun _ _ _ _ => line_assembles,
    fun _ _ _ => ⟨rfl, rfl, rfl, rfl, rfl, rfl⟩⟩

end Sys2Proof

/-! PROOFS. The policy function and the four arithmetic commands: the statements of 40_alu_arithmetic.md. -/

namespace Sys2Proof

open Machine

/-! ### The policy function, past each bound (R104 to R106) -/

theorem Cfg.overflows_eq_false_iff (c : Cfg) (v : Int) : c.overflows v = false ↔ c.inRange v = true := by
  simp only [Cfg.overflows, Bool.or_eq_false_iff, decide_eq_false_iff_not, not_lt, c.inRange_iff]
  exact and_comm

theorem narrow_of_max_lt {c : Cfg} {v : Int} (p : Policy) (h : c.max < v) :
    narrow c p v = if p = .saturate then c.max else c.min := by
  cases p <;> simp [narrow, h]

theorem narrow_of_lt_min {c : Cfg} {v : Int} (p : Policy) (h : v < c.min) :
    narrow c p v = if p = .saturate then c.min else c.max := by
  have hmax : ¬ c.max < v := by
    have := c.max_nonneg
    have := c.min_neg
    omega
  cases p <;> simp [narrow, h, hmax]

theorem narrow_clamped (c : Cfg) (p : Policy) (v : Int) : Clamped c p v (narrow c p v) :=
  ⟨fun h => narrow_of_inRange c p ((c.inRange_iff v).mpr h), narrow_of_max_lt p, narrow_of_lt_min p⟩

/-- The policies give the opposite bounds on overflow, which differ. -/
theorem narrow_saturate_eq_wrapAround_iff (c : Cfg) (v : Int) :
    narrow c .saturate v = narrow c .wrapAround v ↔ c.overflows v = false := by
  have hne : c.min < c.max := c.min_neg.trans_le c.max_nonneg
  rw [c.overflows_eq_false_iff]
  constructor
  · intro h
    rw [c.inRange_iff]
    by_contra hv
    rcases not_and_or.mp hv with hlo | hhi
    · simp [narrow_of_lt_min _ (not_le.mp hlo), hne.ne] at h
    · simp [narrow_of_max_lt _ (not_le.mp hhi), hne.ne'] at h
  · intro h
    rw [narrow_of_inRange c _ h, narrow_of_inRange c _ h]

/-- Saturate is the clamp between the bounds. -/
theorem narrow_saturate_eq (c : Cfg) (v : Int) : narrow c .saturate v = max c.min (min v c.max) := by
  have hmin := c.min_neg
  have hmax := c.max_nonneg
  simp only [narrow]
  split_ifs <;> omega

theorem narrow_saturate_mono {c : Cfg} {v w : Int} (h : v ≤ w) :
    narrow c .saturate v ≤ narrow c .saturate w := by
  rw [narrow_saturate_eq, narrow_saturate_eq]
  exact max_le_max_left _ (min_le_min_right _ h)

/-- Settles O25: by the three cases of the policy function; WrapAround falls from `MAX` to `MIN` at `MAX + 1`. -/
theorem policyFunctionShape : Obligations.PolicyFunctionShape := by
  intro c
  have hmax : c.inRange c.max = true := (c.inRange_iff _).mpr ⟨(c.min_neg.trans_le c.max_nonneg).le, le_rfl⟩
  refine ⟨fun p v => ⟨narrow_inRange c p v, narrow_clamped c p v⟩, narrow_saturate_eq_wrapAround_iff c,
    fun _ _ => narrow_saturate_mono, c.max, c.max + 1, (lt_add_one _).le, ?_⟩
  rw [narrow_of_inRange c _ hmax, narrow_of_max_lt _ (lt_add_one _)]
  exact c.min_neg.trans_le c.max_nonneg

/-! ### Shifts and the truncating quotient (R16) -/

theorem asr_mul_le (v : Int) (k : Nat) : asr v k * 2 ^ k ≤ v := by
  exact_mod_cast Int.ediv_mul_le v (two_pow_pos k).ne'

theorem lt_asr_add_one_mul (v : Int) (k : Nat) : v < (asr v k + 1) * 2 ^ k := by
  exact_mod_cast Int.lt_ediv_add_one_mul_self v (two_pow_pos k)

@[simp] theorem asr_zero (k : Nat) : asr 0 k = 0 := Int.zero_ediv _

theorem asr_mul_one (c : Cfg) (a : Int) : asr (a * c.one) c.fracBits = a :=
  Int.mul_ediv_cancel a (two_pow_pos _).ne'

theorem tdiv_shl_one (c : Cfg) (a : Int) : tdiv (shl a c.fracBits) c.one = a :=
  (tdiv_eq _ _).trans (Int.mul_tdiv_cancel a (two_pow_pos _).ne')

theorem abs_asr_le (v : Int) (k : Nat) : |asr v k| ≤ |v| := Int.abs_ediv_le_abs v _

theorem abs_tdiv_le (a b : Int) : |tdiv a b| ≤ |a| := by
  rw [tdiv_eq, Int.abs_eq_natAbs, Int.abs_eq_natAbs, Int.natAbs_tdiv]
  exact_mod_cast Nat.div_le_self _ _

/-! ### Laws of the four operations (R116, R117) -/

/-- With an integer bit beside the sign, `from_int(1)` is `ONE` (C6). -/
theorem Cfg.fromInt_one {c : Cfg} (hF : c.fracBits ≤ c.w - 2) : c.fromInt 1 = c.one := by
  have hone : c.inRange c.one = true := Cfg.inRange_of_abs_le_one hF (abs_of_pos (two_pow_pos _)).le
  rw [Cfg.fromInt, shl, one_mul]
  exact c.trunc_self hone

/-- Settles O24: the wide value of each law is the raw value itself, or lies past a bound. -/
theorem arithmeticLaws : Obligations.ArithmeticLaws := by
  intro c p a b ha _
  have ha' : narrow c p a = a := narrow_of_inRange c p ha
  have h0 : narrow c p 0 = 0 := narrow_of_inRange c p c.zero_inRange
  have hone : 0 < c.one := two_pow_pos _
  refine ⟨?_, ?_, ?_, ?_, ?_, ?_, ?_, ?_, fun hF => ?_⟩
  · rw [aluAdd, add_zero, ha']
  · rw [aluMul, mul_zero, asr_zero, h0]
  · rw [aluSub, sub_self, h0]
  · rw [aluAdd, aluAdd, add_comm]
  · rw [aluMul, aluMul, mul_comm]
  · exact if_pos rfl
  · rw [aluMul, asr_mul_one, ha']
  · rw [aluDiv, if_neg hone.ne', aluQuot, tdiv_shl_one, ha']
  · have hmax : c.max < c.max + c.one := lt_add_of_pos_right _ hone
    have hmin : c.min - c.one < c.min := sub_lt_self _ hone
    rw [Cfg.fromInt_one hF]
    exact ⟨narrow_of_max_lt _ hmax, narrow_of_lt_min _ hmin, narrow_of_max_lt _ hmax⟩

/-! ### Wide values (R102)

`2^(W-1)` bounds the magnitude of a raw value and, for `F ≤ W-1`, the factor `2^F`; so its square `2^(2W-2)`
bounds the magnitude of every wide value. -/

theorem Cfg.abs_le_of_inRange {c : Cfg} {a : Int} (h : c.inRange a = true) : |a| ≤ 2 ^ (c.w - 1) := by
  obtain ⟨h0, h1⟩ := (c.inRange_iff a).mp h
  simp only [Cfg.min, Cfg.max, Nat.cast_pow, Nat.cast_ofNat] at h0 h1
  exact abs_le.mpr ⟨h0, by omega⟩

theorem Cfg.two_le_two_pow_w_pred (c : Cfg) : (2 : Int) ≤ 2 ^ (c.w - 1) := by
  have := c.max_ge
  simp only [Cfg.max, Nat.cast_pow, Nat.cast_ofNat] at this
  omega

theorem Cfg.two_pow_w_pred_mul_self (c : Cfg) : (2 : Int) ^ (c.w - 1) * 2 ^ (c.w - 1) = 2 ^ (c.ww - 2) := by
  rw [← pow_add, Cfg.ww, promote]
  congr 1
  omega

theorem fits_ww_of_abs_le {c : Cfg} {w : Int} (h : |w| ≤ 2 ^ (c.ww - 2)) :
    -2 ^ (c.ww - 1) ≤ w ∧ w < 2 ^ (c.ww - 1) := by
  have hww : c.ww - 2 < c.ww - 1 := by
    have := c.w_pos
    rw [Cfg.ww, promote]
    omega
  obtain ⟨hlo, hhi⟩ := abs_lt.mp (h.trans_lt (pow_lt_pow_right₀ one_lt_two hww))
  exact ⟨hlo.le, hhi⟩

section

variable {c : Cfg} {a b : Int} (ha : c.inRange a = true) (hb : c.inRange b = true)

include ha

theorem abs_shl_le_of_inRange (hF : c.fracBits ≤ c.w - 1) : |shl a c.fracBits| ≤ 2 ^ (c.ww - 2) := by
  have hone : ((2 ^ c.fracBits : Nat) : Int) ≤ 2 ^ (c.w - 1) := by
    exact_mod_cast Nat.pow_le_pow_right Nat.two_pos hF
  rw [shl, abs_mul, Nat.abs_cast, ← c.two_pow_w_pred_mul_self]
  exact mul_le_mul (Cfg.abs_le_of_inRange ha) hone (two_pow_pos _).le (by positivity)

include hb

theorem abs_mul_le_of_inRange : |a * b| ≤ 2 ^ (c.ww - 2) := by
  rw [abs_mul, ← c.two_pow_w_pred_mul_self]
  exact mul_le_mul (Cfg.abs_le_of_inRange ha) (Cfg.abs_le_of_inRange hb) (abs_nonneg b) (by positivity)

theorem abs_add_abs_le_of_inRange : |a| + |b| ≤ 2 ^ (c.ww - 2) :=
  calc |a| + |b| ≤ 2 ^ (c.w - 1) + 2 ^ (c.w - 1) :=
        add_le_add (Cfg.abs_le_of_inRange ha) (Cfg.abs_le_of_inRange hb)
    _ = 2 * 2 ^ (c.w - 1) := (two_mul _).symm
    _ ≤ 2 ^ (c.w - 1) * 2 ^ (c.w - 1) := mul_le_mul_of_nonneg_right c.two_le_two_pow_w_pred (by positivity)
    _ = 2 ^ (c.ww - 2) := c.two_pow_w_pred_mul_self

end

/-- Settles O26: `2^(2W-2)` bounds the magnitude of every wide value; the right shift and the quotient only shrink. -/
theorem wideValuesFitThePromotedWidth : Obligations.WideValuesFitThePromotedWidth := by
  intro c a b w hF ha hb hw
  apply fits_ww_of_abs_le
  rcases hw with rfl | rfl | rfl | rfl | rfl | ⟨-, rfl⟩
  · exact (abs_add_le a b).trans (abs_add_abs_le_of_inRange ha hb)
  · exact (abs_sub a b).trans (abs_add_abs_le_of_inRange ha hb)
  · exact abs_mul_le_of_inRange ha hb
  · exact (abs_asr_le _ _).trans (abs_mul_le_of_inRange ha hb)
  · exact abs_shl_le_of_inRange ha hF
  · exact (abs_tdiv_le _ b).trans (abs_shl_le_of_inRange ha hF)

/-! ### The commands that respond with a policy result (R110 to R112) -/

namespace Machine

theorem coded_of_encode {w : BitVec 32} {i : Instr} (hw : i.wellFormed = true) (he : encode i = w) : Coded w i :=
  ⟨he ▸ decode_encode hw, he⟩

/-- A command that only responds, with one raw value. -/
theorem completes_of_respond {s : State} {i : Instr} {y : Int} (h : exec i s = .next (s.respond y 0))
    (hy : s.cfg.inRange y = true) : Completes i s s.xmem y 0 :=
  ⟨_, h, answered_respond_same s hy s.cfg.zero_inRange⟩

/-- A command that only responds, with a wide value through the policy. -/
theorem completes_clamped {s : State} {i : Instr} {p : Policy} {v : Int}
    (h : exec i s = .next (s.respond (narrow s.cfg p v) 0)) :
    ∃ y, Completes i s s.xmem y 0 ∧ Clamped s.cfg p v y :=
  ⟨_, completes_of_respond h (narrow_inRange s.cfg p v), narrow_clamped s.cfg p v⟩

/-- Settles O14: the command responds with the wide sum through the policy. -/
theorem addCompletes : Obligations.AddCompletes :=
  ⟨coded_of_encode rfl rfl, coded_of_encode rfl rfl, fun _ _ => completes_clamped rfl⟩

/-- Settles O15: the command responds with the wide difference through the policy. -/
theorem subCompletes : Obligations.SubCompletes :=
  ⟨coded_of_encode rfl rfl, coded_of_encode rfl rfl, fun _ _ => completes_clamped rfl⟩

/-- Settles O16: the command responds with the shifted product through the policy, and the shift is the floor. -/
theorem mulCompletes : Obligations.MulCompletes := by
  refine ⟨coded_of_encode rfl rfl, coded_of_encode rfl rfl, fun p s => ?_⟩
  obtain ⟨y, hy, hclamped⟩ := completes_clamped (s := s) (i := .mul p) rfl
  exact ⟨_, y, asr_mul_le _ _, lt_asr_add_one_mul _ _, hy, hclamped⟩

end Machine

end Sys2Proof

/-! PROOFS. The comparisons, the conversions, `Q` and `val`: the statements of 41_alu_compare_convert.md. -/

namespace Sys2Proof

open Machine

/-! ### The comparisons (R130 to R136) -/

theorem truth_decide (P : Prop) [Decidable P] : truth (decide P) = if P then 1 else 0 := by
  simp only [truth, decide_eq_true_eq]

namespace Machine

/-- A command that only responds, with the truth of `P`. -/
theorem completes_of_respond_truth {s : State} {i : Instr} {P : Prop} [Decidable P]
    (h : exec i s = .next (s.respond (truth (decide P)) 0)) :
    Completes i s s.xmem (if P then 1 else 0) 0 :=
  truth_decide P ▸ completes_of_respond h (truth_inRange s.cfg _)

/-- Settles O19: each command responds with the truth of its comparison. -/
theorem comparisonsComplete : Obligations.ComparisonsComplete :=
  ⟨coded_of_encode rfl rfl, coded_of_encode rfl rfl, coded_of_encode rfl rfl, coded_of_encode rfl rfl,
    coded_of_encode rfl rfl, coded_of_encode rfl rfl, fun _ =>
      ⟨completes_of_respond_truth rfl, completes_of_respond_truth rfl, completes_of_respond_truth rfl,
        completes_of_respond_truth rfl, completes_of_respond_truth rfl, completes_of_respond_truth rfl⟩⟩

end Machine

/-! ### The conversions (R140 to R142) -/

theorem dvd_trunc_sub (n : Nat) (v : Int) : (2 ^ n : Int) ∣ trunc n v - v := by
  have h : v ≡ trunc n v [ZMOD ((2 ^ n : Nat) : Int)] := (trunc_emod n v).symm
  exact_mod_cast h.dvd

/-- `from_int(i)` is congruent to `i * 2^F` modulo `2^W` (R140). -/
theorem Cfg.dvd_fromInt_sub (c : Cfg) (i : Int) : (2 ^ c.w : Int) ∣ c.fromInt i - i * 2 ^ c.fracBits := by
  exact_mod_cast dvd_trunc_sub c.w (shl i c.fracBits)

namespace Machine

/-- Settles O20: the command responds with `from_int`, a truncation, and `NFX` is `from_int(N)`. -/
theorem fromIntKeepsTheLowBits : Obligations.FromIntKeepsTheLowBits := by
  have range (c : Cfg) (i : Int) : c.min ≤ c.fromInt i ∧ c.fromInt i ≤ c.max :=
    (c.inRange_iff _).mp (c.fromInt_inRange i)
  exact ⟨coded_of_encode rfl rfl,
    fun s => ⟨_, completes_of_respond rfl (s.cfg.fromInt_inRange s.opA), s.cfg.dvd_fromInt_sub _, range _ _⟩,
    fun c => ⟨c.dvd_fromInt_sub c.n, range _ _⟩⟩

/-- Settles O21: the command responds with the arithmetic right shift, which is the floor. -/
theorem toIntFloors : Obligations.ToIntFloors :=
  ⟨coded_of_encode rfl rfl, fun s =>
    ⟨_, completes_of_respond rfl (s.cfg.toInt_inRange (opA_inRange s)), asr_mul_le _ _, lt_asr_add_one_mul _ _⟩⟩

/-- Settles O22: the command responds with its operand, and a word read and driven again keeps its `W` bits. -/
theorem fromRawPassesTheWord : Obligations.FromRawPassesTheWord := by
  refine ⟨coded_of_encode rfl rfl, fun s => ⟨completes_of_respond rfl (opA_inRange s), fun t ht => ?_⟩⟩
  obtain rfl : s.respond s.opA 0 = t := Host.Outcome.next.inj ht
  exact ⟨_, rfl, toWord_sintW s.cfg s.port.cmdOpa⟩

end Machine

/-! ### Rounding to nearest, halves away from zero (R16)

On `x ≥ 0` the rounding is Mathlib's `round x = ⌊x + 1/2⌋`, and it is odd. -/

theorem rha_neg (x : ℚ) : rha (-x) = -rha x := by simp [rha, rhaDiv]

theorem rha_of_nonneg {x : ℚ} (hx : 0 ≤ x) : rha x = round x := by
  rcases hx.eq_or_lt with rfl | hpos
  · simp [rha, rhaDiv]
  have hd : (x.den : ℚ) ≠ 0 := by exact_mod_cast x.den_nz
  have hnum : (x.num.natAbs : ℚ) = x * x.den := by
    rw [Rat.mul_den_eq_num, Nat.cast_natAbs, abs_of_pos (Rat.num_pos.mpr hpos)]
  have hhalf : x + 1 / 2 = ((2 * x.num.natAbs + x.den : Nat) : ℚ) / ((2 * x.den : Nat) : ℚ) := by
    push_cast [hnum]
    field_simp
  rw [rha, rhaDiv, Int.sign_eq_one_of_pos (Rat.num_pos.mpr hpos), one_mul, round_eq, hhalf,
    Rat.floor_natCast_div_natCast, Int.natCast_ediv]

/-- `rha` by floors, for both signs (R16). -/
theorem rha_eq_floor (x : ℚ) : rha x = if 0 ≤ x then ⌊x + 1 / 2⌋ else -⌊-x + 1 / 2⌋ := by
  split_ifs with hx
  · rw [rha_of_nonneg hx, round_eq]
  · rw [← round_eq, ← rha_of_nonneg (neg_nonneg.mpr (not_le.mp hx).le), rha_neg, neg_neg]

theorem abs_rha_sub_le (x : ℚ) : |(rha x : ℚ) - x| ≤ 1 / 2 := by
  have nonneg {y : ℚ} (hy : 0 ≤ y) : |(rha y : ℚ) - y| ≤ 1 / 2 := by
    rw [rha_of_nonneg hy, abs_sub_comm]
    exact abs_sub_round y
  rcases le_total 0 x with hx | hx
  · exact nonneg hx
  · have h := nonneg (neg_nonneg.mpr hx)
    rwa [rha_neg, Int.cast_neg, neg_sub_neg, abs_sub_comm] at h

theorem rha_intCast (r : Int) : rha r = r := by
  have h : |((rha r - r : Int) : ℚ)| < 1 := by
    push_cast
    exact (abs_rha_sub_le r).trans_lt (by norm_num)
  exact sub_eq_zero.mp (Int.abs_lt_one_iff.mp (by exact_mod_cast h))

/-! ### `Q` and `val` (R150 to R155) -/

theorem Cfg.val_mul (c : Cfg) (r : Int) : c.val r * 2 ^ c.fracBits = r := by
  rw [Cfg.val, Nat.cast_pow, Nat.cast_ofNat, div_mul_cancel₀ _ (by positivity)]

theorem Cfg.abs_val_sub (c : Cfg) (r : Int) (x : ℚ) :
    |c.val r - x| = |(r : ℚ) - x * 2 ^ c.fracBits| / 2 ^ c.fracBits := by
  have hpos : (0 : ℚ) < 2 ^ c.fracBits := by positivity
  rw [eq_div_iff hpos.ne', ← c.val_mul r, ← sub_mul, abs_mul, abs_of_pos hpos]

theorem Cfg.quantise_eq (c : Cfg) (x : ℚ) :
    c.quantise x = if c.inRange (rha (x * 2 ^ c.fracBits)) then some (rha (x * 2 ^ c.fracBits)) else none := by
  simp only [Cfg.quantise, Nat.cast_pow, Nat.cast_ofNat]

/-- Settles O57: `Q` rounds `x * 2^F`, the rounding is within a half of it, and an integer rounds to itself. -/
theorem quantisationRoundsToNearest : Obligations.QuantisationRoundsToNearest := by
  refine fun c => ⟨fun x r hr => ?_, fun r hr => ?_⟩
  · obtain rfl : r = rha (x * 2 ^ c.fracBits) := by
      have hpow : (0 : ℚ) < 2 ^ c.fracBits := by positivity
      simp only [hr, rha_eq_floor, mul_nonneg_iff_of_pos_right hpow, neg_mul]
    refine ⟨c.quantise_eq x, ?_⟩
    rw [c.abs_val_sub, pow_succ', ← div_div]
    exact div_le_div_of_nonneg_right (abs_rha_sub_le _) (by positivity)
  · rw [c.quantise_eq, c.val_mul, rha_intCast, if_pos hr]

/-! ### Rounding to `p` significant bits (R153)

`nearestInt p r` is a multiple of `2^k`, at most half of `2^k` away from `r`, where `k` low bits are dropped. A
number of `p` significant bits is such a multiple too, or its magnitude is at most `2^(p-1) * 2^k`, which is
itself such a multiple and at most `|r|`. -/

/-- How many low bits `r` has beyond the `p` significant ones. -/
def droppedBits (p : Nat) (r : Int) : Nat := Nat.log2 r.natAbs + 1 - p

theorem natAbs_lt_two_pow (p : Nat) (r : Int) : r.natAbs < 2 ^ p * 2 ^ droppedBits p r := by
  rw [← pow_add]
  exact Nat.lt_log2_self.trans_le (Nat.pow_le_pow_right Nat.two_pos (by rw [droppedBits]; omega))

/-- Where bits are dropped, the leading bit of `r` is the first of the `p` significant ones. -/
theorem two_pow_le_natAbs {p : Nat} {r : Int} (hp : 1 ≤ p) (hk : droppedBits p r ≠ 0) :
    2 ^ (p - 1) * 2 ^ droppedBits p r ≤ r.natAbs := by
  have hlog : p - 1 + droppedBits p r = Nat.log2 r.natAbs := by
    rw [droppedBits] at hk ⊢
    omega
  have hr : r.natAbs ≠ 0 := by
    intro h0
    rw [droppedBits, h0, Nat.log2_zero] at hk
    omega
  rw [← pow_add, hlog]
  exact Nat.log2_self_le hr

/-- The magnitude of `nearestInt`, as a multiple of `2^k`. -/
theorem nearestInt_eq_sign_mul (p : Nat) (r : Int) : ∃ q : Nat,
    nearestInt p r = r.sign * ((q * 2 ^ droppedBits p r : Nat) : Int) ∧ q ≤ 2 ^ p ∧
      2 * r.natAbs ≤ 2 * (q * 2 ^ droppedBits p r) + 2 ^ droppedBits p r ∧
      2 * (q * 2 ^ droppedBits p r) ≤ 2 * r.natAbs + 2 ^ droppedBits p r := by
  have hq : r.natAbs / 2 ^ droppedBits p r < 2 ^ p :=
    Nat.div_lt_of_lt_mul (by rw [mul_comm]; exact natAbs_lt_two_pow p r)
  have hdiv := Nat.div_add_mod' r.natAbs (2 ^ droppedBits p r)
  have hmod := Nat.mod_lt r.natAbs (Nat.two_pow_pos (droppedBits p r))
  simp only [droppedBits] at hq hdiv hmod ⊢
  refine ⟨_, rfl, ?_⟩
  generalize r.natAbs.log2 + 1 - p = k at hq hdiv hmod ⊢
  split_ifs with hup
  · have hrest : 2 ^ k ≤ 2 * (r.natAbs % 2 ^ k) := by
      rcases (Bool.or_eq_true _ _).mp hup with h | h
      · exact (of_decide_eq_true h).le
      · exact (of_decide_eq_true (Bool.and_eq_true_iff.mp h).1).le
    rw [Nat.succ_mul (r.natAbs / 2 ^ k)]
    omega
  · have hrest : 2 * (r.natAbs % 2 ^ k) ≤ 2 ^ k := by
      by_contra h
      exact hup (by simp [not_le.mp h])
    omega

/-- `nearestInt p r` is a multiple of `2^k` with a factor of at most `2^p`, and not farther than half of `2^k`
from `r`. -/
theorem nearestInt_spec (p : Nat) (r : Int) : ∃ j : Int, nearestInt p r = j * 2 ^ droppedBits p r ∧
    |j| ≤ 2 ^ p ∧ 2 * |nearestInt p r - r| ≤ 2 ^ droppedBits p r := by
  obtain ⟨q, heq, hq, hlo, hhi⟩ := nearestInt_eq_sign_mul p r
  have hsign (x : Int) : |r.sign * x| ≤ |x| := by
    rcases eq_or_ne r 0 with rfl | hr
    · simp
    · rw [abs_mul, Int.abs_sign_of_ne_zero hr, one_mul]
  have hsub : nearestInt p r - r = r.sign * (((q * 2 ^ droppedBits p r : Nat) : Int) - r.natAbs) := by
    rw [heq, mul_sub, Int.sign_mul_natAbs]
  refine ⟨r.sign * q, by rw [heq]; push_cast; ring, (hsign q).trans (by exact_mod_cast hq), ?_⟩
  have hdist : 2 * |((q * 2 ^ droppedBits p r : Nat) : Int) - r.natAbs| ≤ ((2 ^ droppedBits p r : Nat) : Int) := by
    rw [Int.abs_eq_natAbs]
    omega
  rw [hsub]
  exact (mul_le_mul_of_nonneg_left (hsign _) two_pos.le).trans (by exact_mod_cast hdist)

theorem nearestInt_of_droppedBits_eq_zero {p : Nat} {r : Int} (hk : droppedBits p r = 0) : nearestInt p r = r := by
  obtain ⟨-, -, -, hdist⟩ := nearestInt_spec p r
  rw [hk, pow_zero, Int.abs_eq_natAbs] at hdist
  omega

/-- No multiple of `2^k` is nearer to `r`: another one is at least `2^k` away from `nearestInt p r`. -/
theorem nearestInt_le_of_multiple (p : Nat) (r j : Int) :
    |nearestInt p r - r| ≤ |j * 2 ^ droppedBits p r - r| := by
  obtain ⟨i, heq, -, hdist⟩ := nearestInt_spec p r
  rcases eq_or_ne j i with rfl | hne
  · rw [heq]
  have hstep : (2 : Int) ^ droppedBits p r ≤ |j * 2 ^ droppedBits p r - nearestInt p r| := by
    rw [heq, ← sub_mul, abs_mul, abs_of_pos (pow_pos two_pos (droppedBits p r) : (0 : Int) < _)]
    exact le_mul_of_one_le_left (by positivity) (Int.one_le_abs (sub_ne_zero.mpr hne))
  have htri := abs_sub_le (j * 2 ^ droppedBits p r) r (nearestInt p r)
  rw [abs_sub_comm r] at htri
  linarith

section

variable {p : Nat} (hp : 1 ≤ p)

include hp

/-- A number whose magnitude is at most `2^(p-1) * 2^k` is no nearer to `r` than that bound with the sign of `r`. -/
theorem nearestInt_le_of_abs_le {r : Int} {y : ℚ} (hk : droppedBits p r ≠ 0)
    (hy : |y| ≤ 2 ^ (p - 1) * 2 ^ droppedBits p r) : |(nearestInt p r : ℚ) - r| ≤ |y - r| := by
  have hbound : (2 : Int) ^ (p - 1) * 2 ^ droppedBits p r ≤ |r| := by
    rw [Int.abs_eq_natAbs]
    exact_mod_cast two_pow_le_natAbs hp hk
  have hr : r ≠ 0 := by
    rintro rfl
    exact absurd hbound (by simp)
  have hsub : r.sign * 2 ^ (p - 1) * 2 ^ droppedBits p r - r =
      r.sign * (2 ^ (p - 1) * 2 ^ droppedBits p r - |r|) := by
    rw [mul_sub, Int.sign_mul_abs, mul_assoc]
  have hnear : |nearestInt p r - r| ≤ |r| - 2 ^ (p - 1) * 2 ^ droppedBits p r := by
    have h := nearestInt_le_of_multiple p r (r.sign * 2 ^ (p - 1))
    rwa [hsub, abs_mul, Int.abs_sign_of_ne_zero hr, one_mul,
      abs_sub_comm _ |r|, abs_of_nonneg (sub_nonneg.mpr hbound)] at h
  calc |(nearestInt p r : ℚ) - r| ≤ |(r : ℚ)| - 2 ^ (p - 1) * 2 ^ droppedBits p r := by exact_mod_cast hnear
    _ ≤ |(r : ℚ)| - |y| := sub_le_sub_left hy _
    _ ≤ |y - r| := by rw [abs_sub_comm]; exact abs_sub_abs_le_abs_sub _ _

/-- No number of `p` significant bits is nearer to `r`. -/
theorem nearestInt_nearest (r : Int) {m e : Int} (hm : |m| < 2 ^ p) :
    |(nearestInt p r : ℚ) - r| ≤ |(m : ℚ) * 2 ^ e - r| := by
  by_cases hk : droppedBits p r = 0
  · rw [nearestInt_of_droppedBits_eq_zero hk, sub_self, abs_zero]
    exact abs_nonneg _
  rcases le_or_gt (droppedBits p r : Int) e with he | he
  · obtain ⟨d, rfl⟩ := Int.le.dest he
    have hmul : (m : ℚ) * 2 ^ ((droppedBits p r : Int) + d) = ((m * 2 ^ d * 2 ^ droppedBits p r : Int) : ℚ) := by
      rw [zpow_add₀ two_ne_zero, zpow_natCast, zpow_natCast]
      push_cast
      ring
    rw [hmul]
    exact_mod_cast nearestInt_le_of_multiple p r (m * 2 ^ d)
  · refine nearestInt_le_of_abs_le hp hk ?_
    have hm' : |(m : ℚ)| ≤ 2 ^ p := by exact_mod_cast hm.le
    rw [abs_mul, abs_of_pos (zpow_pos two_pos e : (0 : ℚ) < 2 ^ e)]
    calc |(m : ℚ)| * 2 ^ e ≤ 2 ^ p * 2 ^ ((droppedBits p r : Int) - 1) :=
          mul_le_mul hm' (zpow_le_zpow_right₀ one_le_two (Int.le_sub_one_of_lt he)) (by positivity) (by positivity)
      _ = 2 ^ (p - 1) * 2 ^ droppedBits p r := by
          rw [zpow_sub_one₀ two_ne_zero, zpow_natCast, ← pow_sub_one_mul (Nat.one_le_iff_ne_zero.mp hp) (2 : ℚ)]
          ring

/-- `nearestInt p r` has `p` significant bits; where the rounding carries to `2^p`, half of that will do. -/
theorem nearestInt_significant (r : Int) : ∃ m e : Int, |m| < 2 ^ p ∧ (nearestInt p r : ℚ) = m * 2 ^ e := by
  obtain ⟨j, heq, hj, -⟩ := nearestInt_spec p r
  rcases hj.lt_or_eq with hlt | hcarry
  · exact ⟨j, droppedBits p r, hlt, by rw [heq]; push_cast; rfl⟩
  · have hdvd : (2 : Int) ∣ j := by
      rw [← dvd_abs, hcarry]
      exact dvd_pow_self 2 (by omega)
    obtain ⟨m, rfl⟩ := hdvd
    refine ⟨m, droppedBits p r + 1, ?_, ?_⟩
    · rw [abs_mul, abs_two] at hcarry
      have := two_pow_pos p
      push_cast at this
      omega
    · rw [heq, zpow_add_one₀ two_ne_zero, zpow_natCast]
      push_cast
      ring

/-! ### The floating-point values (R153) -/

/-- Nearness carries over from raw values to represented ones, which are `2^F` times smaller. -/
theorem val_nearestInt_nearest (c : Cfg) (r : Int) {m e : Int} (hm : |m| < 2 ^ p) :
    |c.val (nearestInt p r) - c.val r| ≤ |(m : ℚ) * 2 ^ e - c.val r| := by
  have hscale : (m : ℚ) * 2 ^ e * 2 ^ c.fracBits = m * 2 ^ (e + c.fracBits) := by
    rw [zpow_add₀ two_ne_zero, zpow_natCast, mul_assoc]
  rw [c.abs_val_sub, abs_sub_comm _ (c.val r), c.abs_val_sub, c.val_mul, abs_sub_comm (r : ℚ), hscale]
  exact div_le_div_of_nonneg_right (nearestInt_nearest hp r hm) (by positivity)

theorem val_nearestInt_significant (c : Cfg) (r : Int) :
    ∃ m e : Int, |m| < 2 ^ p ∧ c.val (nearestInt p r) = m * 2 ^ e := by
  obtain ⟨m, e, hm, heq⟩ := nearestInt_significant hp r
  refine ⟨m, e - c.fracBits, hm, ?_⟩
  rw [Cfg.val, heq, zpow_sub₀ two_ne_zero, zpow_natCast, mul_div_assoc, Nat.cast_pow, Nat.cast_ofNat]

end

/-- A raw value of at most 32 bits has no bit beyond 53 significant ones. -/
theorem droppedBits_eq_zero_of_inRange {c : Cfg} {r : Int} (hw : c.w ≤ 32) (hr : c.inRange r = true) :
    droppedBits 53 r = 0 := by
  have habs : r.natAbs ≤ 2 ^ (c.w - 1) := by
    have h := Cfg.abs_le_of_inRange hr
    rw [Int.abs_eq_natAbs] at h
    exact_mod_cast h
  have hlt : r.natAbs < 2 ^ (53 - 1) := habs.trans_lt (Nat.pow_lt_pow_right Nat.one_lt_two (by omega))
  by_contra hk
  have hle : 2 ^ (53 - 1) ≤ r.natAbs :=
    (Nat.le_mul_of_pos_right _ (Nat.two_pow_pos _)).trans (two_pow_le_natAbs (by decide) hk)
  exact hle.not_gt hlt

/-- Settles O58: both values are `val` of `r` rounded to 24 and to 53 significant bits, which drops no bit of a
raw value with `W ≤ 32`. -/
theorem floatingValueIsNearest : Obligations.FloatingValueIsNearest := fun c r =>
  ⟨c.val_mul r, fun _ _ hm => val_nearestInt_nearest (by decide) c r hm,
    fun _ _ hm => val_nearestInt_nearest (by decide) c r hm,
    val_nearestInt_significant (by decide) c r, val_nearestInt_significant (by decide) c r,
    fun hw hr => congrArg c.val (nearestInt_of_droppedBits_eq_zero (droppedBits_eq_zero_of_inRange hw hr))⟩

end Sys2Proof

/-! PROOFS. The sample-memory commands `WRX` and `RDX`: the statements of 42_complex_sample.md. -/

namespace Sys2Proof

namespace Machine

/-! ### An index out of range (R165, R166, R305) -/

theorem indexOk_eq_false {s : State} {k : Nat} (hk : s.cfg.n ≤ k) : s.indexOk k = false :=
  decide_eq_false hk.not_gt

theorem errs_of_raise {s : State} {i : Instr} {e : ErrCode} (h : exec i s = .next (s.raise e)) : Errs i s e :=
  ⟨_, h, answered_raise s e⟩

theorem exec_wrx_of_le {s : State} {k : Nat} (hk : s.cfg.n ≤ k) : exec (.wrx k) s = .next (s.raise .badIndex) := by
  simp [exec, execWrx, indexOk_eq_false hk]

theorem exec_rdx_of_le {s : State} {k : Nat} (hk : s.cfg.n ≤ k) : exec (.rdx k) s = .next (s.raise .badIndex) := by
  simp [exec, execRdx, indexOk_eq_false hk]

/-! ### A cell without value (R25) -/

theorem exec_rdx_of_unwritten {s : State} {k : Nat} (hk : k < s.cfg.n) (hx : Memory.read s.xmem k = none) :
    exec (.rdx k) s = .fault .unwrittenCell := by
  simp [exec, execRdx, State.indexOk, hk, hx]

/-! ### The two commands -/

/-- The word of a command with a free immediate, for every value of the field (R63, R65). -/
theorem coded_of_imm {w : BitVec 32} {i : Instr} {k : Nat} (hi : i.imm? = some k) (hk : k < 2 ^ 21)
    (he : encode i = w) : Coded w i :=
  coded_of_encode (Instr.wellFormed_of_imm hi hk) he

/-- Settles O30: in range the new memory is the old one after a write of cell `k`, out of range `BAD_INDEX` is
raised. -/
theorem wrxWritesOneCell : Obligations.WrxWritesOneCell := by
  refine ⟨fun k hk => coded_of_imm rfl hk rfl, fun k s =>
    ⟨fun hk => ?_, fun hk => errs_of_raise (exec_wrx_of_le hk)⟩⟩
  have hzero := s.cfg.zero_inRange
  exact ⟨_, ⟨_, exec_wrx_of_lt hk, answered_respond s _ hzero hzero⟩, read_write_same _ _ _,
    fun _ hj => read_write_ne _ _ hj⟩

/-- Settles O31: a cell of a memory that fits holds two raw values, which are the response; a cell without value
is the fault, and out of range `BAD_INDEX` is raised. -/
theorem rdxReadsOneCell : Obligations.RdxReadsOneCell := by
  refine ⟨fun k hk => coded_of_imm rfl hk rfl, fun k s hfits =>
    ⟨fun x hk hx => ?_, exec_rdx_of_unwritten, fun hk => errs_of_raise (exec_rdx_of_le hk)⟩⟩
  obtain ⟨hre, him⟩ := (s.cfg.sampleOk_iff x).mp (sampleOk_of_read hfits hx)
  exact ⟨_, exec_rdx_of_read hk hx, answered_respond_same s hre him⟩

end Machine

end Sys2Proof

/-! PROOFS. The twiddle generator, the canonical table and `RDTW`: the statements of 43_twiddle_rom.md. -/

namespace Sys2Proof

open Machine

/-! ### Counting half turns by the sign of the sine -/

/-- `j` is the number of whole half turns in the angle `x`: `floor(x / π)` for `x ≥ 0`. -/
def HalfTurnsIn (x : ℝ) (j : Nat) : Prop := j * Real.pi ≤ x ∧ x < (j + 1) * Real.pi

/-- After a rotation by less than half a turn the count goes up by one exactly where the sine, its sign taken
in the half turn of the count, is not positive. -/
theorem HalfTurnsIn.add {x φ : ℝ} {j : Nat} (h : HalfTurnsIn x j) (hφ : φ ∈ Set.Ioo 0 Real.pi) :
    HalfTurnsIn (x + φ) (if 0 < Real.sin (x + φ - j * Real.pi) then j else j + 1) := by
  obtain ⟨hlo, hhi⟩ := h
  obtain ⟨hpos, hlt⟩ := hφ
  have hsin : 0 < Real.sin (x + φ - j * Real.pi) ↔ x + φ < (j + 1) * Real.pi := by
    constructor
    · intro hs
      by_contra hge
      have hnonneg : 0 ≤ Real.sin (x + φ - j * Real.pi - Real.pi) :=
        Real.sin_nonneg_of_nonneg_of_le_pi (by linarith) (by linarith)
      rw [Real.sin_sub_pi] at hnonneg
      linarith
    · intro hs
      exact Real.sin_pos_of_pos_of_lt_pi (by linarith) (by linarith)
  simp only [hsin]
  split_ifs with hs
  · exact ⟨by linarith, hs⟩
  · exact ⟨by push_cast; linarith, by push_cast; linarith⟩

theorem HalfTurnsIn.le_iff {x : ℝ} {j i : Nat} (h : HalfTurnsIn x j) : i ≤ j ↔ i * Real.pi ≤ x := by
  obtain ⟨hlo, hhi⟩ := h
  constructor
  · intro hij
    exact (mul_le_mul_of_nonneg_right (by exact_mod_cast hij) Real.pi_pos.le).trans hlo
  · intro hx
    have hlt : (i : ℝ) < j + 1 := lt_of_mul_lt_mul_right (hx.trans_lt hhi) Real.pi_pos.le
    exact Nat.le_of_lt_succ (by exact_mod_cast hlt)

/-! ### The integer recurrence is a scaled sine -/

/-- `s` is `b^(k-1) sin(k φ) / sin φ`, written without division. -/
def ScaledSine (φ : ℝ) (b : Int) (k : Nat) (s : Int) : Prop :=
  (s : ℝ) * (b * Real.sin φ) = b ^ k * Real.sin (k * φ)

/-- The recurrence of `sin(k φ)` in `k`. -/
theorem sin_add_two_mul (φ : ℝ) (k : Nat) :
    Real.sin (((k + 2 : Nat) : ℝ) * φ) = 2 * Real.cos φ * Real.sin (((k + 1 : Nat) : ℝ) * φ) - Real.sin (k * φ) := by
  have hadd := Real.sin_add (((k + 1 : Nat) : ℝ) * φ) φ
  have hsub := Real.sin_sub (((k + 1 : Nat) : ℝ) * φ) φ
  have hnext : ((k + 1 : Nat) : ℝ) * φ + φ = ((k + 2 : Nat) : ℝ) * φ := by push_cast; ring
  have hprev : ((k + 1 : Nat) : ℝ) * φ - φ = k * φ := by push_cast; ring
  rw [hnext] at hadd
  rw [hprev] at hsub
  rw [hadd, hsub]
  ring

/-- The sign test of `halfTurns` is the sign of the sine in the half turn of the count. -/
theorem ScaledSine.signed_pos_iff {φ : ℝ} {b s : Int} {k : Nat} (hs : ScaledSine φ b k s) (hb : 0 < b)
    (hφ : φ ∈ Set.Ioo 0 Real.pi) (j : Nat) :
    0 < (if j % 2 = 0 then s else -s) ↔ 0 < Real.sin (k * φ - j * Real.pi) := by
  have hbR : (0 : ℝ) < b := by exact_mod_cast hb
  have hscale : 0 < (b : ℝ) * Real.sin φ := mul_pos hbR (Real.sin_pos_of_mem_Ioo hφ)
  have hsign : (((if j % 2 = 0 then s else -s) : Int) : ℝ) = (-1) ^ j * s := by
    rcases Nat.even_or_odd j with h | h
    · simp [h.neg_one_pow, Nat.even_iff.mp h]
    · simp [h.neg_one_pow, Nat.odd_iff.mp h]
  have heq : (((if j % 2 = 0 then s else -s) : Int) : ℝ) * (b * Real.sin φ) =
      b ^ k * Real.sin (k * φ - j * Real.pi) := by
    rw [Real.sin_sub_nat_mul_pi, hsign, mul_assoc, hs]
    ring
  rw [← Int.cast_pos (R := ℝ), ← mul_pos_iff_of_pos_right hscale, heq, mul_pos_iff_of_pos_left (pow_pos hbR k)]

section

variable {φ : ℝ} {a b : Int} (hcos : (a : ℝ) = b * Real.cos φ)

include hcos

/-- One step of the recurrence of `halfTurns`. -/
theorem ScaledSine.next {k : Nat} {prev cur : Int} (hprev : ScaledSine φ b k prev)
    (hcur : ScaledSine φ b (k + 1) cur) :
    ScaledSine φ b (k + 2) (2 * a * cur - b * b * prev) := by
  unfold ScaledSine at *
  rw [sin_add_two_mul]
  push_cast at hcur ⊢
  rw [hcos]
  linear_combination 2 * b * Real.cos φ * hcur - b * b * hprev

variable (hb : 0 < b) (hφ : φ ∈ Set.Ioo 0 Real.pi)

include hb hφ

/-- `halfTurns`, from `S_k`, `S_(k+1)` and the count of `(k + 1) φ`, gives the count `steps` later. -/
theorem halfTurnsIn_halfTurns : ∀ (steps k : Nat) {prev cur : Int} {j : Nat}, ScaledSine φ b k prev →
    ScaledSine φ b (k + 1) cur → HalfTurnsIn (((k + 1 : Nat) : ℝ) * φ) j →
    HalfTurnsIn (((k + 1 + steps : Nat) : ℝ) * φ) (halfTurns a b steps prev cur j) := by
  intro steps
  induction steps with
  | zero =>
    intro k prev cur j _ _ hj
    exact hj
  | succ steps ih =>
    intro k prev cur j hprev hcur hj
    have hnext := hprev.next hcos hcur
    have hturn : ((k + 1 : Nat) : ℝ) * φ + φ = ((k + 2 : Nat) : ℝ) * φ := by push_cast; ring
    have hj' := hj.add hφ
    rw [hturn] at hj'
    simp only [← hnext.signed_pos_iff hb hφ j] at hj'
    rw [← Nat.add_assoc, Nat.add_right_comm]
    exact ih (k + 1) hcur hnext hj'

/-- Run from `S_0 = 0`, `S_1 = 1`, `halfTurns` counts the half turns in `m φ`. -/
theorem halfTurnsIn_halfTurns_start {m : Nat} (hm : 1 ≤ m) :
    HalfTurnsIn (m * φ) (halfTurns a b (m - 1) 0 1 0) := by
  have hzero : ScaledSine φ b 0 0 := by simp [ScaledSine]
  have hone : ScaledSine φ b 1 1 := by simp [ScaledSine]
  have hturn : HalfTurnsIn (((0 + 1 : Nat) : ℝ) * φ) 0 := by simpa [HalfTurnsIn] using ⟨hφ.1.le, hφ.2⟩
  have h := halfTurnsIn_halfTurns hcos hb hφ (m - 1) 0 hzero hone hturn
  rwa [Nat.zero_add, Nat.add_sub_cancel' hm] at h

end

/-! ### The search for the rounded cosine -/

/-- `π j / m` for `0 ≤ j ≤ m` is an angle of the upper half plane. -/
theorem pi_mul_div_mem_Icc {m j : Nat} (hm : 1 ≤ m) (hj : j ≤ m) : Real.pi * j / m ∈ Set.Icc 0 Real.pi := by
  have hmR : (0 : ℝ) < m := by exact_mod_cast hm
  have hjR : (j : ℝ) ≤ m := by exact_mod_cast hj
  refine ⟨by positivity, (div_le_iff₀ hmR).mpr ?_⟩
  exact mul_le_mul_of_nonneg_left hjR Real.pi_pos.le

/-- What `cosGe` decides: with `φ` the angle of cosine `a / b`, whether `π j / m ≤ φ`. -/
theorem cosGe_iff {m j : Nat} {a b : Int} (hm : 1 ≤ m) (hj : j ≤ m) (hlo : -b < a) (hhi : a < b) :
    cosGe m j a b = true ↔ (a : ℝ) ≤ b * Real.cos (Real.pi * j / m) := by
  have hb : 0 < b := by omega
  have hbR : (0 : ℝ) < b := by exact_mod_cast hb
  have hmR : (0 : ℝ) < m := by exact_mod_cast hm
  have hgt : -1 < (a / b : ℝ) := by
    rw [lt_div_iff₀ hbR, neg_one_mul]
    exact_mod_cast hlo
  have hlt : (a / b : ℝ) < 1 := by
    rw [div_lt_one hbR]
    exact_mod_cast hhi
  have hcos : Real.cos (Real.arccos (a / b)) = a / b := Real.cos_arccos hgt.le hlt.le
  have hφ : Real.arccos (a / b) ∈ Set.Ioo 0 Real.pi :=
    ⟨Real.arccos_pos.mpr hlt, Real.arccos_lt_pi.mpr hgt⟩
  have hcount := halfTurnsIn_halfTurns_start (a := a) (b := b) (by rw [hcos]; field_simp) hb hφ hm
  have hangle := Real.strictAntiOn_cos.le_iff_ge ⟨hφ.1.le, hφ.2.le⟩ (pi_mul_div_mem_Icc hm hj)
  rw [hcos, div_le_iff₀ hbR, div_le_iff₀ hmR, mul_comm _ (b : ℝ)] at hangle
  rw [cosGe, decide_eq_true_iff, hcount.le_iff, hangle, mul_comm Real.pi, mul_comm (m : ℝ)]

/-- The test of `cosSearch` on a candidate `r`: `r ≤ 2^F` and `cos(π j / m) ≥ (2 r - 1) / 2^(F+1)`. -/
def cosSearchTest (f m j r : Nat) : Bool :=
  decide (r ≤ 2 ^ f) && cosGe m j (2 * (r : Int) - 1) ((2 ^ (f + 1) : Nat) : Int)

theorem cosSearch_succ (f m j bits r : Nat) : cosSearch f m j (bits + 1) r =
    if cosSearchTest f m j (r + 2 ^ bits) then cosSearch f m j bits (r + 2 ^ bits) else cosSearch f m j bits r :=
  rfl

/-- A search whose test is `r ≤ q` finds `q`. -/
theorem cosSearch_eq {f m j q : Nat} (htest : ∀ r, 1 ≤ r → (cosSearchTest f m j r = true ↔ r ≤ q)) :
    ∀ {bits r : Nat}, r ≤ q → q < r + 2 ^ bits → cosSearch f m j bits r = q := by
  intro bits
  induction bits with
  | zero =>
    intro r hr hq
    exact hr.antisymm (Nat.le_of_lt_succ hq)
  | succ bits ih =>
    intro r hr hq
    have hpos := Nat.two_pow_pos bits
    rw [pow_succ] at hq
    simp only [cosSearch_succ, htest (r + 2 ^ bits) (by omega)]
    split_ifs with h
    · exact ih h (by omega)
    · exact ih hr (by omega)

theorem two_pow_mul_cos_le (f : Nat) (x : ℝ) : 2 ^ f * Real.cos x ≤ 2 ^ f :=
  mul_le_of_le_one_right (by positivity) (Real.cos_le_one x)

/-- The test compares with `2^F cos(π j / m) + 1/2`; the guard `r ≤ 2^F` follows from that. -/
theorem cosSearchTest_iff {f m j r : Nat} (hm : 1 ≤ m) (hj : j ≤ m) (hr : 1 ≤ r) :
    cosSearchTest f m j r = true ↔ (r : ℝ) ≤ 2 ^ f * Real.cos (Real.pi * j / m) + 1 / 2 := by
  have hge (hle : r ≤ 2 ^ f) : cosGe m j (2 * (r : Int) - 1) ((2 ^ (f + 1) : Nat) : Int) = true ↔
      (r : ℝ) ≤ 2 ^ f * Real.cos (Real.pi * j / m) + 1 / 2 := by
    rw [cosGe_iff hm hj (by omega) (by omega)]
    push_cast
    rw [pow_succ]
    constructor <;> intro h <;> linarith
  rw [cosSearchTest, Bool.and_eq_true, decide_eq_true_iff]
  refine ⟨fun ⟨hle, h⟩ => (hge hle).mp h, fun h => ?_⟩
  have hle : r ≤ 2 ^ f := by
    have hlt : (r : ℝ) < ((2 ^ f + 1 : Nat) : ℝ) := by
      push_cast
      linarith [two_pow_mul_cos_le f (Real.pi * j / m)]
    exact Nat.le_of_lt_succ (by exact_mod_cast hlt)
  exact ⟨hle, (hge hle).mpr h⟩

/-! ### Rounding halves away from zero (R16, D24) -/

namespace Machine

theorem isRha_of_nonneg {x : ℝ} (hx : 0 ≤ x) : IsRha x ⌊x + 1 / 2⌋ :=
  ⟨fun _ => rfl, fun h => absurd h hx.not_gt⟩

/-- `rha(-x) = -rha(x)`. -/
theorem IsRha.neg {x : ℝ} {r : Int} (h : IsRha x r) : IsRha (-x) (-r) := by
  obtain ⟨hnonneg, hneg⟩ := h
  refine ⟨fun hx => ?_, fun hx => ?_⟩
  · rcases (neg_nonneg.mp hx).lt_or_eq with hlt | rfl
    · rw [hneg hlt, neg_neg]
    · rw [hnonneg le_rfl]
      norm_num
  · rw [hnonneg (neg_lt_zero.mp hx).le, neg_neg]

/-- An integer rounds to itself only. -/
theorem IsRha.eq_of_intCast {z r : Int} (h : IsRha z r) : r = z := by
  have hfloor (u : Int) : ⌊(u : ℝ) + 1 / 2⌋ = u := by
    rw [Int.floor_intCast_add]
    norm_num
  obtain ⟨hnonneg, hneg⟩ := h
  rcases le_or_gt 0 (z : ℝ) with hz | hz
  · rw [hnonneg hz, hfloor]
  · rw [hneg hz, ← Int.cast_neg, hfloor, neg_neg]

end Machine

/-! ### The rounded cosine, by quarters of the turn -/

/-- The first quarter: the search finds the floor of `2^F cos(π j / m) + 1/2`. -/
theorem isRha_cosSearch {f m j : Nat} (hm : 1 ≤ m) (hj : 2 * j ≤ m) :
    IsRha (2 ^ f * Real.cos (Real.pi * j / m)) (cosSearch f m j (f + 1) 0 : Int) := by
  have hquarter : Real.pi * j / m ∈ Set.Icc (-(Real.pi / 2)) (Real.pi / 2) := by
    have hmR : (0 : ℝ) < m := by exact_mod_cast hm
    have hjR : 2 * (j : ℝ) ≤ m := by exact_mod_cast hj
    have hpi := Real.pi_pos
    refine ⟨(neg_nonpos.mpr (by positivity)).trans (by positivity), ?_⟩
    rw [div_le_div_iff₀ hmR two_pos]
    nlinarith
  have hcos : 0 ≤ 2 ^ f * Real.cos (Real.pi * j / m) :=
    mul_nonneg (by positivity) (Real.cos_nonneg_of_mem_Icc hquarter)
  have hnonneg : 0 ≤ 2 ^ f * Real.cos (Real.pi * j / m) + 1 / 2 := by positivity
  have hfloor : cosSearch f m j (f + 1) 0 = ⌊2 ^ f * Real.cos (Real.pi * j / m) + 1 / 2⌋₊ := by
    refine cosSearch_eq (fun r hr => ?_) (Nat.zero_le _) ?_
    · rw [cosSearchTest_iff hm (by omega) hr, Nat.le_floor_iff hnonneg]
    · have hone : (1 : ℝ) ≤ 2 ^ f := one_le_pow₀ one_le_two
      rw [Nat.zero_add, Nat.floor_lt hnonneg]
      push_cast [pow_succ]
      linarith [two_pow_mul_cos_le f (Real.pi * j / m)]
  rw [hfloor, Int.natCast_floor_eq_floor hnonneg]
  exact isRha_of_nonneg hcos

/-- The half turn: the second quarter from the first by `cos(π - x) = -cos x`. -/
theorem isRha_rhaCos {f m j : Nat} (hm : 1 ≤ m) (hj : j ≤ m) :
    IsRha (2 ^ f * Real.cos (Real.pi * j / m)) (rhaCos f m j) := by
  unfold rhaCos
  split_ifs with h
  · exact isRha_cosSearch hm h
  · have hmirror : Real.pi * j / m = Real.pi - Real.pi * ((m - j : Nat) : ℝ) / m := by
      have hmR : (m : ℝ) ≠ 0 := by exact_mod_cast (show m ≠ 0 by omega)
      rw [Nat.cast_sub hj]
      field_simp
      ring
    rw [hmirror, Real.cos_pi_sub, mul_neg]
    exact (isRha_cosSearch hm (by omega)).neg

/-- The whole turn: the second half from the first by `cos(2π - x) = cos x`. -/
theorem isRha_rhaCosTurn {f n j : Nat} (hn : 1 ≤ n) (hj : j ≤ 4 * n) :
    IsRha (2 ^ f * Real.cos (Real.pi * j / (2 * n))) (rhaCosTurn f n j) := by
  have hnR : (n : ℝ) ≠ 0 := by exact_mod_cast (show n ≠ 0 by omega)
  have half {i : Nat} (hi : i ≤ 2 * n) :
      IsRha (2 ^ f * Real.cos (Real.pi * i / (2 * n))) (rhaCos f (2 * n) i) := by
    simpa using isRha_rhaCos (f := f) (show 1 ≤ 2 * n by omega) hi
  unfold rhaCosTurn
  split_ifs with h
  · exact half h
  · have hmirror : Real.pi * j / (2 * n) = 2 * Real.pi - Real.pi * ((4 * n - j : Nat) : ℝ) / (2 * n) := by
      rw [Nat.cast_sub hj]
      push_cast
      field_simp
      ring
    rw [hmirror, Real.cos_two_pi_sub]
    exact half (by omega)

/-! ### The generator (R180) -/

/-- `cos` three quarters of a turn on is `sin`, whether or not the sum passes the whole turn. -/
theorem cos_three_quarters_on {n k : Nat} (hn : 1 ≤ n) :
    Real.cos (Real.pi * (((4 * k + 3 * n) % (4 * n) : Nat) : ℝ) / (2 * n)) = Real.sin (2 * Real.pi * k / n) := by
  have hnR : (n : ℝ) ≠ 0 := by exact_mod_cast (show n ≠ 0 by omega)
  have hmod : (((4 * k + 3 * n) % (4 * n) : Nat) : ℝ) =
      4 * k + 3 * n - 4 * n * (((4 * k + 3 * n) / (4 * n) : Nat) : ℝ) := by
    have h := Nat.mod_add_div (4 * k + 3 * n) (4 * n)
    rw [eq_sub_iff_add_eq]
    exact_mod_cast h
  have hangle : Real.pi * (((4 * k + 3 * n) % (4 * n) : Nat) : ℝ) / (2 * n) =
      2 * Real.pi * k / n - Real.pi / 2 + 2 * Real.pi - (((4 * k + 3 * n) / (4 * n) : Nat) : ℝ) * (2 * Real.pi) := by
    rw [hmod]
    field_simp
    ring
  rw [hangle, Real.cos_sub_nat_mul_two_pi, Real.cos_add_two_pi, Real.cos_sub_pi_div_two]

/-- The two components of `makeTwiddle` before the range check: cosine and sine of the angle `∓2π (m mod n) / n`. -/
theorem isTwiddle_rhaCosTurn (f m : Nat) (inverse : Bool) {n : Nat} (hn : 1 ≤ n) :
    IsTwiddle f n m inverse ⟨rhaCosTurn f n (4 * (m % n)),
      if inverse then rhaCosTurn f n ((4 * (m % n) + 3 * n) % (4 * n))
      else -rhaCosTurn f n ((4 * (m % n) + 3 * n) % (4 * n))⟩ := by
  have hlt : m % n < n := Nat.mod_lt m hn
  have hre := isRha_rhaCosTurn (f := f) hn (show 4 * (m % n) ≤ 4 * n by omega)
  have him := isRha_rhaCosTurn (f := f) hn (Nat.mod_lt (4 * (m % n) + 3 * n) (show 4 * n > 0 by omega)).le
  have hangle : Real.pi * ((4 * (m % n) : Nat) : ℝ) / (2 * n) = 2 * Real.pi * ((m % n : Nat) : ℝ) / n := by
    push_cast
    ring
  rw [hangle] at hre
  rw [cos_three_quarters_on hn] at him
  cases inverse with
  | true => simpa [IsTwiddle] using ⟨hre, him⟩
  | false => simpa [IsTwiddle] using ⟨hre, him.neg⟩

/-- Settles O28: each component is a rounded cosine, and the range check is the only way to no value. -/
theorem twiddleGeneratorIsExact : Obligations.TwiddleGeneratorIsExact := fun c _ m inverse hn =>
  ⟨_, isTwiddle_rhaCosTurn c.fracBits m inverse hn, rfl⟩

/-! ### The canonical table (R181, R183) -/

/-- Where every twiddle has raw values, the generator answers the twiddle. -/
theorem makeTwiddle_isTwiddle {c : Cfg} (hF : c.fracBits ≤ c.w - 2) {n : Nat} (hn : 1 ≤ n) (m : Nat)
    (inverse : Bool) : ∃ t, makeTwiddle c n m inverse = some t ∧ IsTwiddle c.fracBits n m inverse t := by
  obtain ⟨t, ht, heq⟩ := twiddleGeneratorIsExact c n m inverse hn
  obtain ⟨u, hu, -⟩ := makeTwiddle_exists hF n m inverse
  rw [hu] at heq
  split_ifs at heq
  exact ⟨t, hu.trans heq, ht⟩

/-- A forward twiddle whose scaled components are integers is the pair of them. -/
theorem makeTwiddle_forward_eq {c : Cfg} (hF : c.fracBits ≤ c.w - 2) {n m : Nat} (hn : 1 ≤ n) {re im : Int}
    (hre : 2 ^ c.fracBits * Real.cos (2 * Real.pi * ((m % n : Nat) : ℝ) / n) = re)
    (him : 2 ^ c.fracBits * -Real.sin (2 * Real.pi * ((m % n : Nat) : ℝ) / n) = im) :
    makeTwiddle c n m false = some ⟨re, im⟩ := by
  obtain ⟨t, ht, htw⟩ := makeTwiddle_isTwiddle hF hn m false
  simp only [IsTwiddle, Bool.false_eq_true, if_false, neg_one_mul, Real.cos_neg, Real.sin_neg, hre, him] at htw
  obtain ⟨htre, htim⟩ := htw
  rw [ht, ← htre.eq_of_intCast, ← htim.eq_of_intCast]

theorem makeTwiddle_zero {c : Cfg} (hF : c.fracBits ≤ c.w - 2) {n : Nat} (hn : 1 ≤ n) :
    makeTwiddle c n 0 false = some ⟨c.one, 0⟩ :=
  makeTwiddle_forward_eq hF hn (by simp [Cfg.one]) (by simp)

theorem makeTwiddle_quarter {c : Cfg} (hF : c.fracBits ≤ c.w - 2) {q : Nat} (hq : 1 ≤ q) :
    makeTwiddle c (4 * q) q false = some ⟨0, -c.one⟩ := by
  have hangle : 2 * Real.pi * ((q % (4 * q) : Nat) : ℝ) / ((4 * q : Nat) : ℝ) = Real.pi / 2 := by
    have hqR : (q : ℝ) ≠ 0 := by exact_mod_cast (show q ≠ 0 by omega)
    rw [Nat.mod_eq_of_lt (by omega)]
    push_cast
    field_simp
    norm_num
  refine makeTwiddle_forward_eq hF (by omega) ?_ ?_
  · rw [hangle]
    simp
  · rw [hangle]
    simp [Cfg.one]

/-- A traversal answers at each place what the function answers there. -/
theorem getElem?_of_mapM {α β : Type} {f : α → Option β} : ∀ {xs : List α} {ys : List β},
    xs.mapM f = some ys → ∀ k : Nat, ys[k]? = xs[k]?.bind f := by
  intro xs
  induction xs with
  | nil =>
    intro ys h k
    simp only [List.mapM_nil, Option.pure_def, Option.some.injEq] at h
    simp [← h]
  | cons x xs ih =>
    intro ys h k
    simp only [List.mapM_cons, Option.bind_eq_bind, Option.bind_eq_some_iff, Option.pure_def,
      Option.some.injEq] at h
    obtain ⟨y, hy, zs, hzs, rfl⟩ := h
    cases k with
    | zero => simp [hy]
    | succ k => simpa using ih hzs k

theorem Cfg.canonicalTw_getElem? {c : Cfg} {tw : List Sample} (h : c.canonicalTw = some tw) {k : Nat}
    (hk : k < c.n / 2) : tw[k]? = makeTwiddle c c.n k false := by
  rw [getElem?_of_mapM h, List.getElem?_range hk, Option.bind_some]

theorem Cfg.twOk_iff (c : Cfg) : c.twOk = true ↔ c.tw.length = c.n / 2 ∧ c.tw.all c.sampleOk = true := by
  rw [Cfg.twOk, Bool.and_eq_true, decide_eq_true_iff]

theorem four_mul_div_of_isPowerOfTwo {n : Nat} (h : isPowerOfTwo n = true) (hn : 4 ≤ n) : 4 * (n / 4) = n := by
  obtain ⟨k, rfl⟩ := (isPowerOfTwo_iff n).mp h
  have hk : 2 ≤ k := (Nat.pow_le_pow_iff_right one_lt_two).mp hn
  exact Nat.mul_div_cancel' (Nat.pow_dvd_pow 2 hk)

/-- Settles O29: the table exists since no twiddle exceeds `ONE`, and its two entries are those of the angles `0`
and `-π/2`. -/
theorem canonicalTableExists : Obligations.CanonicalTableExists := by
  intro c hv
  obtain ⟨-, -, -, hn, hF, -⟩ := c.valid_iff_constructible.mp hv
  obtain ⟨tw, htw, hok⟩ := Cfg.canonicalTw_exists hF
  obtain ⟨hlen, hall⟩ := (Cfg.twOk_iff _).mp hok
  refine ⟨tw, htw, hlen, hall, fun h2 => ?_, fun h4 => ?_⟩
  · rw [Cfg.canonicalTw_getElem? htw (by omega)]
    exact makeTwiddle_zero (hF h2) (by omega)
  · have hquarter := four_mul_div_of_isPowerOfTwo ((isPowerOfTwo_and_le_iff c.n).mpr hn).1 h4
    have hentry := makeTwiddle_quarter (hF (by omega)) (show 1 ≤ c.n / 4 by omega)
    rw [Cfg.canonicalTw_getElem? htw (by omega)]
    rwa [hquarter] at hentry

/-! ### The read-out command (R185) -/

/-- An entry of a table of the ROM's form (R26). -/
theorem Cfg.exists_tw_getElem? {c : Cfg} (h : c.twOk = true) {k : Nat} (hk : k < c.n / 2) :
    ∃ x, c.tw[k]? = some x ∧ c.twAt k = x ∧ c.sampleOk x = true := by
  obtain ⟨hlen, hall⟩ := c.twOk_iff.mp h
  have hx : c.tw[k]? = some c.tw[k] := List.getElem?_eq_getElem (hk.trans_eq hlen.symm)
  exact ⟨_, hx, by simp [Cfg.twAt, hx], List.all_eq_true.mp hall _ (List.getElem_mem _)⟩

namespace Machine

theorem exec_rdtw_of_lt {s : State} {k : Nat} (hk : k < s.cfg.n / 2) :
    exec (.rdtw k) s = .next (s.respond (s.cfg.twAt k).re (s.cfg.twAt k).im) :=
  if_pos (decide_eq_true hk)

theorem exec_rdtw_of_le {s : State} {k : Nat} (hk : s.cfg.n / 2 ≤ k) :
    exec (.rdtw k) s = .next (s.raise .badIndex) := by
  simp [exec, execRdtw, State.twIndexOk, hk.not_gt]

/-- Settles O27: an entry of a table of the ROM's form holds two raw values, which are the response; past the
table `BAD_INDEX` is raised. -/
theorem rdtwAnswersTheEntry : Obligations.RdtwAnswersTheEntry := by
  refine ⟨fun k hk => coded_of_imm rfl hk rfl, fun k s htw =>
    ⟨fun hk => ?_, fun hk => errs_of_raise (exec_rdtw_of_le hk)⟩⟩
  obtain ⟨x, hx, rfl, hok⟩ := Cfg.exists_tw_getElem? htw hk
  obtain ⟨hre, him⟩ := (s.cfg.sampleOk_iff _).mp hok
  exact ⟨_, hx, _, exec_rdtw_of_lt hk, answered_respond_same s hre him⟩

end Machine

end Sys2Proof

/-! PROOFS. When the inverse reference transform divides by zero: the statement of 44_reference_transform.md. -/

namespace Sys2Proof

/-- `from_int(i)` is 0 exactly when the low `W` bits of `i * 2^F` are (R140). -/
theorem Cfg.fromInt_eq_zero_iff (c : Cfg) (i : Int) : c.fromInt i = 0 ↔ (2 ^ c.w : Int) ∣ i * 2 ^ c.fracBits := by
  constructor
  · intro h
    simpa [h] using c.dvd_fromInt_sub i
  · intro h
    have hmod : shl i c.fracBits % ((2 ^ c.w : Nat) : Int) = 0 % ((2 ^ c.w : Nat) : Int) := by
      simpa [shl] using Int.emod_eq_zero_of_dvd h
    calc c.fromInt i = trunc c.w 0 := trunc_congr hmod
      _ = 0 := c.trunc_self c.zero_inRange

/-- Every output bin has a value where every twiddle does (R201). -/
theorem dftBin_exists {c : Cfg} (hF : c.fracBits ≤ c.w - 2) (p : Policy) (inverse : Bool) (xs : List Sample)
    (k : Nat) : ∃ y, dftBin c p inverse xs k = some y := by
  refine List.foldlRecOn (motive := fun acc => ∃ y, acc = some y) _ _ ⟨_, rfl⟩ ?_
  rintro _ ⟨a, rfl⟩ n -
  obtain ⟨t, ht, -⟩ := makeTwiddle_exists hF xs.length (k * n) inverse
  exact ⟨_, by rw [ht]⟩

/-- With every bin present, only the divisor `from_int(N)` decides (R203). -/
theorem idft_eq_divByZero_iff {c : Cfg} (hF : c.fracBits ≤ c.w - 2) (p : Policy) (xs : List Sample) :
    idft c p xs = .error .divByZero ↔ c.fromInt xs.length = 0 := by
  have bin : ∀ k ∈ List.range xs.length, ∃ y, dftBin c p true xs k = some y ∧ True :=
    fun k _ => (dftBin_exists hF p true xs k).imp fun _ hy => ⟨hy, trivial⟩
  obtain ⟨ys, hys, -⟩ := mapM_exists_of_forall bin
  by_cases hz : c.fromInt xs.length = 0 <;> simp [idft, hys, hz]

/-- Settles O59: the twiddles exist, so the transform answers `DIV_BY_ZERO` exactly when `from_int(N)` is 0. -/
theorem referenceInverseDividesByZero : Obligations.ReferenceInverseDividesByZero := by
  intro c p xs hF
  rw [idft_eq_divByZero_iff hF, c.fromInt_eq_zero_iff]
  exact_mod_cast Iff.rfl

end Sys2Proof

/-! PROOFS. The bit-reversal table, the in-place permutation and `BITREV`: the statements of 45_bit_reversal.md. -/

namespace Sys2Proof

/-! ### The table (R220, R221) -/

theorem testBit_brev {levels b : Nat} (hb : b < levels) (i : Nat) :
    (brev levels i).testBit b = i.testBit (levels - 1 - b) := by
  induction levels generalizing i with
  | zero => omega
  | succ l ih =>
    rw [brev, mul_comm, Nat.testBit_two_pow_mul_add _ (brev_lt l _)]
    split_ifs with hlt
    · rw [ih hlt, Nat.testBit_div_two, show l - 1 - b + 1 = l + 1 - 1 - b by omega]
    · obtain rfl : b = l := by omega
      simp

/-- The reversal of an index of `levels` bits is its own inverse (R221). -/
theorem brev_brev {levels i : Nat} (hi : i < 2 ^ levels) : brev levels (brev levels i) = i := by
  refine Nat.eq_of_testBit_eq fun b => ?_
  by_cases hb : b < levels
  · rw [testBit_brev hb, testBit_brev (by omega), show levels - 1 - (levels - 1 - b) = b by omega]
  · have high {x : Nat} (hx : x < 2 ^ levels) : x.testBit b = false :=
      Nat.testBit_lt_two_pow (hx.trans_le (Nat.pow_le_pow_right Nat.two_pos (by omega)))
    rw [high (brev_lt _ _), high hi]

/-- Settles O33: the range, the involution and the bits of the reversal. -/
theorem bitReversalTable : Obligations.BitReversalTable :=
  fun levels i hi => ⟨brev_lt levels i, brev_brev hi, fun _ hb => testBit_brev hb i⟩

/-! ### The loop of swaps (R222, R224) -/

/-- After a swap, a cell holds what the cell exchanged with it held. -/
theorem getElem?_swapCells {α : Type} (z : α) {xs : List α} {i j : Nat} (hi : i < xs.length) (hj : j < xs.length)
    (k : Nat) : (swapCells z xs i j)[k]? = xs[Equiv.swap i j k]? := by
  rcases eq_or_ne k j with rfl | hkj
  · simp [swapCells, hi, hj]
  rcases eq_or_ne k i with rfl | hki
  · simp [swapCells, hi, hj, hkj.symm]
  · simp [swapCells, hkj.symm, hki.symm, Equiv.swap_apply_of_ne_of_ne hki hkj]

/-- The cell whose first contents cell `k` holds after the turns `0 .. m-1` of `perm`: its pair has been
exchanged when the smaller of the two indexes has had its turn (R224). -/
def permSource (levels m k : Nat) : Nat := if k < m ∨ brev levels k < m then brev levels k else k

/-- The turn `m` exchanges the sources of `m` and `BR[m]` where `m` is the smaller of the two, and is no change
where it is not: the pair has been exchanged already, or is one cell. -/
theorem permSource_succ {levels m k : Nat} (hm : m < 2 ^ levels) (hk : k < 2 ^ levels) :
    permSource levels (m + 1) k =
      permSource levels m (if m < brev levels m then Equiv.swap m (brev levels m) k else k) := by
  have hkk := brev_brev hk
  have hmm := brev_brev hm
  rcases eq_or_ne k m with rfl | hne
  · by_cases h : k < brev levels k
    · simp [permSource, h, hmm, h.le]
    · simp only [permSource, h, if_false]
      split_ifs <;> omega
  rcases eq_or_ne k (brev levels m) with rfl | hne'
  · by_cases h : m < brev levels m
    · simp [permSource, h, hmm, h.not_gt]
    · simp only [permSource, h, hmm, if_false]
      split_ifs <;> omega
  · have hne'' : brev levels k ≠ m := fun h => hne' (by rw [← h, hkk])
    rw [Equiv.swap_apply_of_ne_of_ne hne hne', ite_self]
    simp only [permSource]
    split_ifs <;> omega

theorem getElem?_permStep {α : Type} (z : α) {levels m : Nat} {xs : List α} (hl : xs.length = 2 ^ levels)
    (hm : m < 2 ^ levels) (k : Nat) : (permStep z levels xs m)[k]? =
      xs[if m < brev levels m then Equiv.swap m (brev levels m) k else k]? := by
  unfold permStep
  split_ifs
  · exact getElem?_swapCells z (hl ▸ hm) (hl ▸ brev_lt levels m) k
  · rfl

/-- After the turns `0 .. m-1`, cell `k` holds what the cell `permSource levels m k` held at first. -/
theorem getElem?_permCells {α : Type} (z : α) {levels : Nat} {xs : List α} (hl : xs.length = 2 ^ levels) {m k : Nat}
    (hm : m ≤ 2 ^ levels) (hk : k < 2 ^ levels) : (permCells z levels m xs)[k]? = xs[permSource levels m k]? := by
  induction m generalizing k with
  | zero => rfl
  | succ m ih =>
    have hlen : (permCells z levels m xs).length = 2 ^ levels := (length_permCells z levels m xs).trans hl
    have hturn : permCells z levels (m + 1) xs = permStep z levels (permCells z levels m xs) m :=
      foldl_range_succ _ _ _
    have hswap : Equiv.swap m (brev levels m) k < 2 ^ levels := by
      rw [Equiv.swap_apply_def]
      have := brev_lt levels m
      split_ifs <;> omega
    rw [hturn, getElem?_permStep z hlen hm, permSource_succ hm hk, ih (by omega)]
    split_ifs <;> assumption

/-! ### The permutation of all cells -/

theorem Cfg.n_eq_two_pow_levels {c : Cfg} (hv : c.valid = true) : c.n = 2 ^ c.levels := by
  obtain ⟨-, -, -, hn, -⟩ := c.valid_iff_constructible.mp hv
  exact of_decide_eq_true ((isPowerOfTwo_and_le_iff c.n).mpr hn).1

theorem getElem?_perm {c : Cfg} (hv : c.valid = true) {xs : List Sample} (hl : xs.length = c.n) {i : Nat}
    (hi : i < c.n) : (perm c xs)[i]? = xs[c.brAt i]? := by
  have hn := Cfg.n_eq_two_pow_levels hv
  have hdone : permSource c.levels c.n i = c.brAt i := if_pos (.inl hi)
  rw [perm, getElem?_permCells _ (hl.trans hn) hn.le (hn ▸ hi), hdone]

/-- Settles O34: at the end of the loop every cell's source is its reversed index. -/
theorem permutationPlacesEveryCell : Obligations.PermutationPlacesEveryCell :=
  fun c xs hv hl => ⟨(length_perm c xs).trans hl, fun _ hi => getElem?_perm hv hl hi⟩

theorem Cfg.brAt_lt {c : Cfg} (hv : c.valid = true) (i : Nat) : c.brAt i < c.n :=
  Cfg.n_eq_two_pow_levels hv ▸ brev_lt c.levels i

/-- The permutation is its own inverse (R224). -/
theorem perm_perm {c : Cfg} (hv : c.valid = true) {xs : List Sample} (hl : xs.length = c.n) :
    perm c (perm c xs) = xs := by
  have hl' : (perm c xs).length = c.n := (length_perm c xs).trans hl
  refine List.ext_getElem? fun i => ?_
  by_cases hi : i < c.n
  · have hback : c.brAt (c.brAt i) = i := brev_brev (Cfg.n_eq_two_pow_levels hv ▸ hi)
    rw [getElem?_perm hv hl' hi, getElem?_perm hv hl (Cfg.brAt_lt hv i), hback]
  · have hle := not_lt.mp hi
    rw [List.getElem?_eq_none (((length_perm _ _).trans hl').trans_le hle), List.getElem?_eq_none (hl.trans_le hle)]

/-! ### The command (R223) -/

namespace Machine

theorem exec_bitrev_of_ne {s : State} {len : Nat} (h : len ≠ s.cfg.n) :
    exec (.bitrev len) s = .next (s.raise .sizeMismatch) :=
  if_neg (by simpa [State.lengthOk] using h)

theorem exec_bitrev_of_readAll {s : State} {xs : List Sample} (h : Memory.readAll s.xmem s.cfg.n = some xs) :
    exec (.bitrev s.cfg.n) s = .next ((s.withXmem (Memory.ofCells (perm s.cfg xs))).respond 0 0) :=
  (if_pos (decide_eq_true rfl)).trans (transform_of_readAll s _ h)

/-- Settles O35: the new memory is that of the permuted cells, which reads as they do and holds no other. -/
theorem bitrevPermutesTheCells : Obligations.BitrevPermutesTheCells := by
  refine ⟨fun k hk => coded_of_imm rfl hk rfl, fun len s =>
    ⟨?_, fun hlen => errs_of_raise (exec_bitrev_of_ne hlen)⟩⟩
  rintro hv rfl hall
  have hzero := s.cfg.zero_inRange
  have hcells := readAll_of_allWritten hall
  have hl := readAll_length hcells
  refine ⟨_, ⟨_, exec_bitrev_of_readAll hcells, answered_respond s _ hzero hzero⟩, fun i hi => ?_, fun i hi => ?_⟩
  · rw [read_ofCells, getElem?_perm hv hl hi, readAll_get hcells (Cfg.brAt_lt hv i)]
  · rw [read_ofCells, List.getElem?_eq_none (((length_perm _ _).trans hl).trans_le hi)]

/-- Settles O36: the second command finds the permuted cells and permutes them back, and a canonical memory is
the memory of its cells. -/
theorem twoBitrevRestoreTheCells : Obligations.TwoBitrevRestoreTheCells := by
  intro s hg hall
  obtain ⟨hinst, hwf, hfits, -⟩ := (good_iff s).mp hg
  have hv : s.cfg.valid = true := ((Bool.and_eq_true _ _).mp hinst).1
  have hcells := readAll_of_allWritten hall
  have hl := readAll_length hcells
  let t := (s.withXmem (Memory.ofCells (perm s.cfg s.cells))).respond 0 0
  have hcells' : Memory.readAll t.xmem t.cfg.n = some (perm s.cfg s.cells) :=
    readAll_ofCells ((length_perm _ _).trans hl)
  refine ⟨t, _, exec_bitrev_of_readAll hcells, exec_bitrev_of_readAll hcells', ?_⟩
  calc Memory.ofCells (perm s.cfg (perm s.cfg s.cells))
    _ = Memory.ofCells s.cells := by rw [perm_perm hv hl]
    _ = s.xmem := ofCells_readAll hwf hfits hcells

end Machine

end Sys2Proof

/-! PROOFS. The butterfly on raw values and its special twiddles: the statements of 46_butterfly.md. -/

namespace Sys2Proof

/-- Settles O37: the butterfly is the sums and differences of `u` and one product, by definition. -/
theorem butterflyWrittenOut : Obligations.ButterflyWrittenOut := fun _ _ _ _ _ _ _ _ => rfl

/-! ### Products with `0`, `ONE` and `-ONE` (R112) -/

theorem aluMul_zero (c : Cfg) (p : Policy) (a : Int) : aluMul c p a 0 = 0 := by
  rw [aluMul, mul_zero, asr_zero, narrow_of_inRange c p c.zero_inRange]

theorem aluMul_one (c : Cfg) (p : Policy) (a : Int) : aluMul c p a c.one = narrow c p a := by
  rw [aluMul, asr_mul_one]

theorem aluMul_neg_one (c : Cfg) (p : Policy) (a : Int) : aluMul c p a (-c.one) = narrow c p (-a) := by
  rw [aluMul, mul_neg, ← neg_mul, asr_mul_one]

/-- Only `MIN` has a negation outside the range (R164). -/
theorem Cfg.neg_inRange {c : Cfg} {a : Int} (ha : c.inRange a = true) (hmin : a ≠ c.min) :
    c.inRange (-a) = true := by
  rw [c.inRange_iff] at ha ⊢
  have := c.max_eq
  omega

/-! ### Twiddles on an axis (R162, R239)

Two of the four products are `0`, and the other two are raw values already. -/

theorem cmul_real (c : Cfg) (p : Policy) (x : Sample) (e : Int) :
    cmul c p x ⟨e, 0⟩ = ⟨aluMul c p x.re e, aluMul c p x.im e⟩ := by
  have hraw (a : Int) : narrow c p (aluMul c p a e) = aluMul c p a e :=
    narrow_of_inRange c p (aluMul_inRange c p a e)
  simp only [cmul, aluMul_zero, aluSub, aluAdd, sub_zero, zero_add, hraw]

theorem cmul_imaginary (c : Cfg) (p : Policy) (x : Sample) (d : Int) :
    cmul c p x ⟨0, d⟩ = ⟨narrow c p (-aluMul c p x.im d), aluMul c p x.re d⟩ := by
  have hraw : narrow c p (aluMul c p x.re d) = aluMul c p x.re d :=
    narrow_of_inRange c p (aluMul_inRange c p x.re d)
  simp only [cmul, aluMul_zero, aluSub, aluAdd, zero_sub, add_zero, hraw]

theorem cmul_one {c : Cfg} (p : Policy) {x : Sample} (hx : c.sampleOk x = true) :
    cmul c p x ⟨c.one, 0⟩ = x := by
  obtain ⟨hre, him⟩ := (c.sampleOk_iff x).mp hx
  rw [cmul_real, aluMul_one, aluMul_one, narrow_of_inRange c p hre, narrow_of_inRange c p him]

/-- Off `MIN` the product with the twiddle `-i` is exact. -/
theorem cmul_neg_i {c : Cfg} (p : Policy) {x : Sample} (hx : c.sampleOk x = true) (hre : x.re ≠ c.min)
    (him : x.im ≠ c.min) : cmul c p x ⟨0, -c.one⟩ = ⟨x.im, -x.re⟩ := by
  obtain ⟨hre', him'⟩ := (c.sampleOk_iff x).mp hx
  rw [cmul_imaginary, aluMul_neg_one, aluMul_neg_one, narrow_of_inRange c p (Cfg.neg_inRange hre' hre),
    narrow_of_inRange c p (Cfg.neg_inRange him' him), neg_neg, narrow_of_inRange c p him']

/-- Settles O38: the product with `1` is the sample itself, and the negations that `-i` asks are raw values. -/
theorem butterflyWithUnitTwiddles : Obligations.ButterflyWithUnitTwiddles := by
  refine fun c p u x hx => ⟨?_, cmul_neg_i p hx⟩
  rw [bfly, cmul_one p hx]

end Sys2Proof

/-! PROOFS. `DIV` and its truncating quotient: section 3 of 40_alu_arithmetic.md (R113, D20). -/

namespace Sys2Proof

/-! ### The sign and the magnitude of the quotient -/

theorem tdiv_eq_sign_mul (a b : Int) : tdiv a b = (a * b).sign * ((a.natAbs / b.natAbs : Nat) : Int) := by
  rw [tdiv, Int.sign_mul]

theorem tdiv_nonneg {a b : Int} (h : 0 ≤ a * b) : 0 ≤ tdiv a b := by
  rw [tdiv_eq_sign_mul]
  exact mul_nonneg (Int.sign_nonneg_iff.mpr h) (Int.natCast_nonneg _)

theorem tdiv_nonpos {a b : Int} (h : a * b ≤ 0) : tdiv a b ≤ 0 := by
  rw [tdiv_eq_sign_mul]
  exact mul_nonpos_of_nonpos_of_nonneg (Int.sign_nonpos_iff.mpr h) (Int.natCast_nonneg _)

theorem natAbs_tdiv (a b : Int) : (tdiv a b).natAbs = a.natAbs / b.natAbs :=
  (congrArg Int.natAbs (tdiv_eq a b)).trans (Int.natAbs_tdiv a b)

theorem natAbs_shl (a : Int) (k : Nat) : (shl a k).natAbs = a.natAbs * 2 ^ k := by
  rw [shl, Int.natAbs_mul, Int.natAbs_natCast]

theorem shl_mul (a b : Int) (k : Nat) : shl a k * b = a * b * ((2 ^ k : Nat) : Int) := mul_right_comm _ _ _

namespace Machine

theorem exec_div_of_ne {s : State} (p : Policy) (h : s.opB ≠ 0) :
    exec (.div p) s = .next (s.respond (narrow s.cfg p (tdiv (shl s.opA s.cfg.fracBits) s.opB)) 0) := by
  simp only [exec, execDiv, aluDiv, if_neg h, aluQuot]

theorem exec_div_of_eq {s : State} (p : Policy) (h : s.opB = 0) : exec (.div p) s = .next (s.raise .divByZero) := by
  simp only [exec, execDiv, aluDiv, if_pos h]

/-- Settles O17: the command responds with the truncating quotient through the policy, which has the sign of the
product and the magnitude of the quotient of magnitudes; a divisor 0 is raised. -/
theorem divCompletesOrReportsZero : Obligations.DivCompletesOrReportsZero := by
  refine ⟨coded_of_encode rfl rfl, coded_of_encode rfl rfl, fun p s =>
    ⟨fun hb => ?_, fun hb => errs_of_raise (exec_div_of_eq p hb)⟩⟩
  obtain ⟨y, hy, hclamped⟩ := completes_clamped (exec_div_of_ne p hb)
  have hpow := (two_pow_pos s.cfg.fracBits).le
  refine ⟨_, y, ?_, fun h => tdiv_nonneg ?_, fun h => tdiv_nonpos ?_, hy, hclamped⟩
  · rw [natAbs_tdiv, natAbs_shl]
  · rw [shl_mul]
    exact mul_nonneg h hpow
  · rw [shl_mul]
    exact mul_nonpos_of_nonpos_of_nonneg h hpow

end Machine

end Sys2Proof

/-! PROOFS. The loop nest and the transform commands: the statements of 47_fft_core.md. -/

namespace Sys2Proof

/-! ### One stage (R255, R257) -/

section

variable {α : Type} (z : α) (tw : Nat → α) (bf : α → α → α → α × α)

/-- What a stage leaves in cell `k`: the first output of the butterfly of the pair `(k, k + half)`, or the second
of the pair `(k - half, k)`. -/
def stageCell (half stride : Nat) (xs : List α) (k : Nat) : α :=
  if k % (2 * half) < half then (bf (xs.getD k z) (xs.getD (k + half) z) (tw (k % half * stride))).1
  else (bf (xs.getD (k - half) z) (xs.getD k z) (tw (k % half * stride))).2

theorem stageCell_first {half i : Nat} (hi : i % (2 * half) < half) (stride : Nat) (xs : List α) :
    stageCell z tw bf half stride xs i =
      (bf (xs.getD i z) (xs.getD (i + half) z) (tw (i % half * stride))).1 :=
  if_pos hi

theorem stageCell_second {half i : Nat} (hi : i % (2 * half) < half) (stride : Nat) (xs : List α) :
    stageCell z tw bf half stride xs (i + half) =
      (bf (xs.getD i z) (xs.getD (i + half) z) (tw (i % half * stride))).2 := by
  have hmod : (i + half) % (2 * half) = i % (2 * half) + half := by
    rw [Nat.add_mod, Nat.mod_eq_of_lt (by omega : half < 2 * half), Nat.mod_eq_of_lt (by omega)]
  rw [stageCell, if_neg (by omega), Nat.add_sub_cancel, Nat.add_mod_right]

/-- One block does its own cells' part of the stage and leaves every other cell. -/
theorem getD_blockPass {half stride q : Nat} {xs : List α} (hq : (q + 1) * (2 * half) ≤ xs.length) (k : Nat) :
    (blockPass z tw bf half stride xs (q * (2 * half))).getD k z =
      if q * (2 * half) ≤ k ∧ k < (q + 1) * (2 * half) then stageCell z tw bf half stride xs k
      else xs.getD k z := by
  have hsucc : (q + 1) * (2 * half) = q * (2 * half) + 2 * half := Nat.succ_mul _ _
  rw [blockPass, block_turns z tw bf half stride _ xs (by omega) half le_rfl]
  by_cases hk : q * (2 * half) ≤ k ∧ k < (q + 1) * (2 * half)
  · obtain ⟨j, rfl⟩ := Nat.exists_eq_add_of_le hk.1
    have hmod : (q * (2 * half) + j) % (2 * half) = j := by
      rw [Nat.mul_add_mod_self_right, Nat.mod_eq_of_lt (by omega)]
    have hmod' : (q * (2 * half) + j) % half = j % half := by
      rw [← Nat.mul_assoc, Nat.mul_add_mod_self_right]
    rw [if_pos hk, stageCell, hmod, hmod']
    by_cases hj : j < half
    · rw [if_pos (by omega), if_pos hj, Nat.add_sub_cancel_left, Nat.mod_eq_of_lt hj]
    · have hj' : q * (2 * half) + j - half - q * (2 * half) = j % half := by
        rw [Nat.mod_eq_sub_mod (by omega), Nat.mod_eq_of_lt (by omega)]
        omega
      rw [if_neg (by omega), if_pos (by omega), if_neg hj, hj']
  · rw [if_neg hk, if_neg (by omega), if_neg (by omega)]

/-- The part of the stage that a cell gets depends on the cells of its own block alone. -/
theorem stageCell_congr {half stride q k : Nat} {xs ys : List α}
    (h : ∀ i, q * (2 * half) ≤ i → ys.getD i z = xs.getD i z) (hk : q * (2 * half) ≤ k) :
    stageCell z tw bf half stride ys k = stageCell z tw bf half stride xs k := by
  unfold stageCell
  split_ifs with hmod
  · rw [h k hk, h (k + half) (by omega)]
  · have hfirst : q * (2 * half) ≤ k - half := by
      obtain ⟨j, rfl⟩ := Nat.exists_eq_add_of_le hk
      rw [Nat.mul_add_mod_self_right] at hmod
      have := Nat.mod_le j (2 * half)
      omega
    rw [h k hk, h (k - half) hfirst]

/-- After the blocks `0 .. m-1`, their cells have had their part of the stage, and the others are as before. -/
theorem stage_turns {half stride : Nat} {xs : List α} {m : Nat} (hm : m * (2 * half) ≤ xs.length) (k : Nat) :
    ((List.range m).foldl (fun ys q => blockPass z tw bf half stride ys (q * (2 * half))) xs).getD k z =
      if k < m * (2 * half) then stageCell z tw bf half stride xs k else xs.getD k z := by
  induction m generalizing k with
  | zero => simp
  | succ m ih =>
    have hsucc : (m + 1) * (2 * half) = m * (2 * half) + 2 * half := Nat.succ_mul _ _
    have ih := ih (by omega)
    have hlen : ((List.range m).foldl (fun ys q => blockPass z tw bf half stride ys (q * (2 * half))) xs).length =
        xs.length :=
      foldl_keeps (fun ys : List α => ys.length = xs.length) _ (fun ys q h => by rw [length_blockPass, h]) _ _ rfl
    rw [foldl_range_succ, getD_blockPass z tw bf (hm.trans_eq hlen.symm)]
    have hrest (i : Nat) (hi : m * (2 * half) ≤ i) := (ih i).trans (if_neg hi.not_gt)
    split_ifs with hblock hk hk
    · exact stageCell_congr z tw bf hrest hblock.1
    · omega
    · exact (ih k).trans (if_pos (by omega))
    · exact hrest k (by omega)

/-- A stage gives every cell its part, from the cells as they were before the stage. -/
theorem getD_stagePass {n half : Nat} {xs : List α} (hl : xs.length = n) (hd : 2 * half ∣ n) {k : Nat}
    (hk : k < n) : (stagePass z tw bf n half xs).getD k z = stageCell z tw bf half (n / (2 * half)) xs k := by
  have hn : n / (2 * half) * (2 * half) = n := Nat.div_mul_cancel hd
  rw [stagePass, stage_turns z tw bf (by omega), if_pos (by omega)]

end

/-- The first index of a pair of stage `t` has bit `t` clear. -/
theorem mod_lt_of_testBit_eq_false {t i : Nat} (h : i.testBit t = false) : i % (2 * 2 ^ t) < 2 ^ t := by
  rw [Nat.testBit_eq_decide_div_mod_eq, decide_eq_false_iff_not] at h
  have hdiv := Nat.mod_mul_right_div_self i (2 ^ t) 2
  have hlt : i % (2 ^ t * 2) / 2 ^ t < 1 := by omega
  rw [mul_comm]
  simpa using (Nat.div_lt_iff_lt_mul (Nat.two_pow_pos t)).mp hlt

/-- Pairs of a stage lie within a length that is a multiple of the block. -/
theorem pair_second_lt {half n i : Nat} (hd : 2 * half ∣ n) (hi : i < n) (hfirst : i % (2 * half) < half) :
    i + half < n := by
  obtain ⟨q, rfl⟩ := hd
  have hdiv := Nat.div_add_mod i (2 * half)
  have hlt : i / (2 * half) < q := Nat.div_lt_of_lt_mul hi
  have hle : 2 * half * (i / (2 * half) + 1) ≤ 2 * half * q := Nat.mul_le_mul_left _ hlt
  rw [Nat.mul_succ] at hle
  omega

/-- The pairs of a stage are all cells. -/
theorem forall_lt_of_pairs {P : Nat → Prop} {half n : Nat} (hd : 2 * half ∣ n)
    (h : ∀ i, i + half < n → i % (2 * half) < half → P i ∧ P (i + half)) : ∀ k, k < n → P k := by
  intro k hk
  by_cases hfirst : k % (2 * half) < half
  · exact (h k (pair_second_lt hd hk hfirst) hfirst).1
  · have hle : half ≤ k := (not_lt.mp hfirst).trans (Nat.mod_le _ _)
    obtain ⟨i, rfl⟩ := Nat.exists_eq_add_of_le' hle
    have hhalf : 0 < half := by
      by_contra h0
      obtain ⟨q, rfl⟩ := hd
      simp [Nat.eq_zero_of_not_pos h0] at hk
    refine (h i hk ?_).2
    have hlt := Nat.mod_lt i (show 0 < 2 * half by omega)
    by_contra hi
    rw [Nat.add_mod_eq_sub, Nat.mod_eq_of_lt (by omega : half < 2 * half), if_neg (by omega)] at hfirst
    omega

theorem getElem?_of_getD {α : Type} {z a : α} {xs : List α} {k : Nat} (hk : k < xs.length) (h : xs.getD k z = a) :
    xs[k]? = some a := by
  rw [List.getElem?_eq_getElem hk, ← h, List.getD_eq_getElem _ _ hk]

/-- The pairs of stage `t` fill a length that is a greater power of two. -/
theorem two_mul_two_pow_dvd {levels t : Nat} (ht : t < levels) : 2 * 2 ^ t ∣ 2 ^ levels := by
  rw [← pow_succ']
  exact Nat.pow_dvd_pow 2 ht

/-- Settles O39: a stage gives every cell its part, and the two cells of a pair get the two outputs of one
butterfly. -/
theorem stageIsItsDisjointButterflies : Obligations.StageIsItsDisjointButterflies := by
  intro c p xs t i hv hl ht hi hbit ys sd
  have hn := Cfg.n_eq_two_pow_levels hv
  have hd : 2 * 2 ^ t ∣ c.n := hn ▸ two_mul_two_pow_dvd ht
  have hfirst := mod_lt_of_testBit_eq_false hbit
  have hsecond := pair_second_lt hd hi hfirst
  have hlen : ys.length = c.n := (length_stagePass _ _ _ _ _ _).trans hl
  have hget {k : Nat} (hk : k < c.n) := getD_stagePass Sample.zero c.twAt (bfly c p) hl hd hk
  rw [← pow_succ'] at hget
  exact ⟨getElem?_of_getD (hi.trans_eq hlen.symm) ((hget hi).trans (stageCell_first _ _ _ hfirst _ _)),
    getElem?_of_getD (hsecond.trans_eq hlen.symm) ((hget hsecond).trans (stageCell_second _ _ _ hfirst _ _))⟩

/-! ### All stages (R255) -/

section

variable {α : Type} (z : α) (tw : Nat → α) (bf : α → α → α → α × α)

/-- The stages `0 .. t-1`, on cells already permuted. -/
def stagesBelow (n t : Nat) (xs : List α) : List α :=
  (List.range t).foldl (fun ys t => stagePass z tw bf n (2 ^ t) ys) xs

theorem forwardCells_eq_stagesBelow (levels n : Nat) (xs : List α) :
    forwardCells z tw bf levels n xs = stagesBelow z tw bf n levels (permCells z levels n xs) := rfl

theorem stagesBelow_succ (n t : Nat) (xs : List α) :
    stagesBelow z tw bf n (t + 1) xs = stagePass z tw bf n (2 ^ t) (stagesBelow z tw bf n t xs) :=
  foldl_range_succ _ _ _

theorem length_stagesBelow (n t : Nat) (xs : List α) : (stagesBelow z tw bf n t xs).length = xs.length :=
  foldl_keeps (fun ys : List α => ys.length = xs.length) _ (fun ys t h => by rw [length_stagePass, h]) _ _ rfl

theorem getD_permCells {levels k : Nat} {xs : List α} (hl : xs.length = 2 ^ levels) (hk : k < 2 ^ levels) :
    (permCells z levels (2 ^ levels) xs).getD k z = xs.getD (brev levels k) z := by
  have hsource : permSource levels (2 ^ levels) k = brev levels k := if_pos (.inl hk)
  rw [List.getD_eq_getElem?_getD, getElem?_permCells z hl le_rfl hk, hsource, ← List.getD_eq_getElem?_getD]

/-- What the stages leave in every cell, from a description `f t k` of what cell `k` holds after the stages
`0 .. t-1`: at every stage the two outputs of a butterfly take the places of its two inputs. -/
theorem getD_stagesBelow {levels : Nat} {xs : List α} (hl : xs.length = 2 ^ levels) {f : Nat → Nat → α}
    (hstart : ∀ k, k < 2 ^ levels → xs.getD k z = f 0 k)
    (hstage : ∀ t i, t < levels → i % (2 * 2 ^ t) < 2 ^ t →
      bf (f t i) (f t (i + 2 ^ t)) (tw (i % 2 ^ t * (2 ^ levels / (2 * 2 ^ t)))) =
        (f (t + 1) i, f (t + 1) (i + 2 ^ t))) :
    ∀ t, t ≤ levels → ∀ k, k < 2 ^ levels → (stagesBelow z tw bf (2 ^ levels) t xs).getD k z = f t k := by
  intro t
  induction t with
  | zero => exact fun _ => hstart
  | succ t ih =>
    intro ht
    have ih := ih (by omega)
    have hlen := (length_stagesBelow z tw bf (2 ^ levels) t xs).trans hl
    have hd := two_mul_two_pow_dvd ht
    refine forall_lt_of_pairs hd fun i hi hfirst => ?_
    have hbf := hstage t i ht hfirst
    rw [← ih i (by omega), ← ih (i + 2 ^ t) hi] at hbf
    rw [stagesBelow_succ, getD_stagePass z tw bf hlen hd (by omega), getD_stagePass z tw bf hlen hd hi,
      stageCell_first z tw bf hfirst, stageCell_second z tw bf hfirst, hbf]
    exact ⟨rfl, rfl⟩

/-- The same of the whole loop nest, which permutes first. -/
theorem getD_forwardCells {levels : Nat} {xs : List α} (hl : xs.length = 2 ^ levels) {f : Nat → Nat → α}
    (hperm : ∀ k, k < 2 ^ levels → xs.getD (brev levels k) z = f 0 k)
    (hstage : ∀ t i, t < levels → i % (2 * 2 ^ t) < 2 ^ t →
      bf (f t i) (f t (i + 2 ^ t)) (tw (i % 2 ^ t * (2 ^ levels / (2 * 2 ^ t)))) =
        (f (t + 1) i, f (t + 1) (i + 2 ^ t))) {k : Nat} (hk : k < 2 ^ levels) :
    (forwardCells z tw bf levels (2 ^ levels) xs).getD k z = f levels k := by
  have hstart (k : Nat) (hk : k < 2 ^ levels) := (getD_permCells z hl hk).trans (hperm k hk)
  rw [forwardCells_eq_stagesBelow]
  exact getD_stagesBelow z tw bf ((length_permCells z levels _ xs).trans hl) hstart hstage levels le_rfl k hk

end

/-! ### The exact transform (R255) -/

/-- `W_N^j = exp(-2πi j / N)`. -/
noncomputable def root (N j : Nat) : ℂ := Complex.exp (-(2 * Real.pi * Complex.I * (j : ℂ) / (N : ℂ)))

theorem root_add (N i j : Nat) : root N (i + j) = root N i * root N j := by
  rw [root, root, root, ← Complex.exp_add]
  push_cast
  ring_nf

theorem root_mul_mul {d : Nat} (hd : d ≠ 0) (N j : Nat) : root (d * N) (d * j) = root N j := by
  have hd' : (d : ℂ) ≠ 0 := by exact_mod_cast hd
  rw [root, root]
  push_cast
  rw [← mul_div_mul_left _ (N : ℂ) hd']
  ring_nf

/-- Whole turns. -/
theorem root_self_mul {N : Nat} (hN : N ≠ 0) (q : Nat) : root N (N * q) = 1 := by
  have hN' : (N : ℂ) ≠ 0 := by exact_mod_cast hN
  have h := Complex.exp_int_mul_two_pi_mul_I (-q)
  rw [root, ← h]
  push_cast
  congr 1
  field_simp

theorem root_add_self_mul {N : Nat} (hN : N ≠ 0) (j q : Nat) : root N (j + N * q) = root N j := by
  rw [root_add, root_self_mul hN, mul_one]

/-- Half a turn on. -/
theorem root_add_half {N : Nat} (hN : N ≠ 0) (k : Nat) : root (2 * N) (k + N) = -root (2 * N) k := by
  have hN' : (N : ℂ) ≠ 0 := by exact_mod_cast hN
  have hangle : -(2 * Real.pi * Complex.I * (N : ℂ) / ((2 * N : Nat) : ℂ)) = -(Real.pi * Complex.I) := by
    push_cast
    field_simp
  have hhalf : root (2 * N) N = -1 := by
    rw [root, hangle, Complex.exp_neg, Complex.exp_pi_mul_I, inv_neg, inv_one]
  rw [root_add, hhalf, mul_neg_one]

/-- A sum over `2 a` terms, the even and the odd ones apart. -/
theorem sum_range_two_mul (f : Nat → ℂ) (a : Nat) : ∑ m ∈ Finset.range (2 * a), f m =
    ∑ m ∈ Finset.range a, f (2 * m) + ∑ m ∈ Finset.range a, f (2 * m + 1) := by
  induction a with
  | zero => simp
  | succ a ih =>
    rw [Nat.mul_succ, Finset.sum_range_succ, Finset.sum_range_succ, ih, Finset.sum_range_succ, Finset.sum_range_succ]
    ring

/-- Bin `k` of the transform of length `2^t` of the samples `b, b + 2^s, b + 2·2^s, ..`. -/
noncomputable def stridedBin (s t : Nat) (xs : List ℂ) (b k : Nat) : ℂ :=
  ∑ m ∈ Finset.range (2 ^ t), xs.getD (b + 2 ^ s * m) 0 * root (2 ^ t) (k * m)

theorem stridedBin_add_length (s t : Nat) (xs : List ℂ) (b k : Nat) :
    stridedBin s t xs b (k + 2 ^ t) = stridedBin s t xs b k := by
  simp only [stridedBin, add_mul, root_add_self_mul (Nat.two_pow_pos t).ne']

/-- Decimation in time: a transform of twice the length from those of the even and of the odd samples. -/
theorem stridedBin_succ (s t : Nat) (xs : List ℂ) (b k : Nat) : stridedBin s (t + 1) xs b k =
    stridedBin (s + 1) t xs b k + stridedBin (s + 1) t xs (2 ^ s + b) k * root (2 * 2 ^ t) k := by
  have heven (m : Nat) : root (2 * 2 ^ t) (k * (2 * m)) = root (2 ^ t) (k * m) := by
    rw [mul_left_comm, root_mul_mul two_ne_zero]
  rw [stridedBin, pow_succ', sum_range_two_mul, stridedBin, stridedBin, Finset.sum_mul]
  congr 1 <;> refine Finset.sum_congr rfl fun m _ => ?_
  · rw [heven, pow_succ, mul_assoc]
  · have hindex : b + 2 ^ s * (2 * m + 1) = 2 ^ s + b + 2 ^ (s + 1) * m := by ring
    rw [hindex, Nat.mul_add_one, root_add, heven, mul_assoc]

/-- The twiddle of the pair `(i, i + 2^t)` from the table of length `2^levels`. -/
theorem root_stage {levels t i : Nat} (ht : t < levels) (hfirst : i % (2 * 2 ^ t) < 2 ^ t) :
    root (2 ^ levels) (i % 2 ^ t * (2 ^ levels / (2 * 2 ^ t))) = root (2 * 2 ^ t) i := by
  obtain ⟨d, hd⟩ := two_mul_two_pow_dvd ht
  have hpos : 0 < 2 * 2 ^ t := by positivity
  have hd0 : d ≠ 0 := by
    rintro rfl
    exact (Nat.two_pow_pos levels).ne' hd
  have hmod : i % 2 ^ t = i % (2 * 2 ^ t) := by
    rw [← Nat.mod_mod_of_dvd i (Dvd.intro_left 2 rfl), Nat.mod_eq_of_lt hfirst]
  have hperiod := root_add_self_mul hpos.ne' (i % (2 * 2 ^ t)) (i / (2 * 2 ^ t))
  rw [Nat.mod_add_div] at hperiod
  rw [hmod, hd, Nat.mul_div_cancel_left d hpos, mul_comm (2 * 2 ^ t), mul_comm (i % _), root_mul_mul hd0, hperiod]

/-- After the stages `0 .. t-1`, a block of `2^t` cells holds the transform of every `2^(levels-t)`-th sample,
from the one whose index is the reversed number of the block. -/
noncomputable def stageBin (levels : Nat) (xs : List ℂ) (t k : Nat) : ℂ :=
  stridedBin (levels - t) t xs (brev (levels - t) (k / 2 ^ t)) k

/-- The exact butterfly of two half-length bins is two bins of the whole length. -/
theorem stageBin_butterfly {levels t i : Nat} (xs : List ℂ) (ht : t < levels) (hfirst : i % (2 * 2 ^ t) < 2 ^ t) :
    stageBin levels xs (t + 1) i =
      stageBin levels xs t i + stageBin levels xs t (i + 2 ^ t) * root (2 * 2 ^ t) i ∧
    stageBin levels xs (t + 1) (i + 2 ^ t) =
      stageBin levels xs t i - stageBin levels xs t (i + 2 ^ t) * root (2 * 2 ^ t) i := by
  obtain ⟨s, hs⟩ : ∃ s, levels - t = s + 1 := ⟨levels - t - 1, by omega⟩
  have hs' : levels - (t + 1) = s := by omega
  have hpos := Nat.two_pow_pos t
  have hpair (j : Nat) : j / (2 * 2 ^ t) = j / 2 ^ t / 2 := by rw [mul_comm, Nat.div_div_eq_div_mul]
  have heven : i / 2 ^ t % 2 = 0 := by
    rw [← Nat.mod_mul_right_div_self, mul_comm]
    exact Nat.div_eq_of_lt hfirst
  have hblock : i / 2 ^ t = 2 * (i / (2 * 2 ^ t)) := by rw [hpair]; omega
  have hblock' : (i + 2 ^ t) / 2 ^ t = 2 * (i / (2 * 2 ^ t)) + 1 := by rw [Nat.add_div_right _ hpos, hblock]
  have hsame : (i + 2 ^ t) / (2 * 2 ^ t) = i / (2 * 2 ^ t) := by rw [hpair, hblock']; omega
  rw [stageBin, stageBin, stageBin, stageBin, hs, hs', pow_succ', hsame, hblock, hblock', brev_even, brev_odd,
    stridedBin_succ, stridedBin_succ, stridedBin_add_length, stridedBin_add_length,
    root_add_half hpos.ne', mul_neg, ← sub_eq_add_neg]
  exact ⟨rfl, rfl⟩

/-- Settles O40: by decimation in time, stage by stage; after the last stage the one block is all cells and holds
the transform of all samples. -/
theorem loopNestComputesTheTransform : Obligations.LoopNestComputesTheTransform := by
  intro levels xs hl k hk
  have h := getD_forwardCells 0 (root (2 ^ levels)) (fun u x w => (u + x * w, u - x * w)) hl (f := stageBin levels xs)
    (fun k _ => by simp [stageBin, stridedBin, root]) (fun t i ht hfirst => by
      obtain ⟨h1, h2⟩ := stageBin_butterfly xs ht hfirst
      rw [root_stage ht hfirst, h1, h2]) hk
  refine h.trans ?_
  simp [stageBin, stridedBin, brev, root]

/-! ### The impulse (R270) -/

theorem cadd_zero (c : Cfg) (p : Policy) {x : Sample} (hx : c.sampleOk x = true) : cadd c p x Sample.zero = x := by
  obtain ⟨hre, him⟩ := (c.sampleOk_iff x).mp hx
  simp only [cadd, aluAdd, add_zero, narrow_of_inRange c p hre, narrow_of_inRange c p him]

theorem csub_zero (c : Cfg) (p : Policy) {x : Sample} (hx : c.sampleOk x = true) : csub c p x Sample.zero = x := by
  obtain ⟨hre, him⟩ := (c.sampleOk_iff x).mp hx
  simp only [csub, aluSub, sub_zero, narrow_of_inRange c p hre, narrow_of_inRange c p him]

theorem cmul_zero (c : Cfg) (p : Policy) (w : Sample) : cmul c p Sample.zero w = Sample.zero := by
  simp [cmul, aluMul, aluAdd, aluSub, narrow_of_inRange c p c.zero_inRange]

/-- With a second input `0` the butterfly copies the first, whatever the twiddle is. -/
theorem bfly_zero {c : Cfg} (p : Policy) {u : Sample} (hu : c.sampleOk u = true) (w : Sample) :
    bfly c p u Sample.zero w = (u, u) := by
  rw [bfly, cmul_zero, cadd_zero c p hu, csub_zero c p hu]

/-- What the impulse has become after the stages `0 .. t-1`: `2^t` copies of its value. -/
def impulseAt (x : Sample) (t k : Nat) : Sample := if k < 2 ^ t then x else Sample.zero

theorem getD_impulse (x : Sample) (n k : Nat) : (x :: List.replicate n Sample.zero).getD k Sample.zero =
    impulseAt x 0 k := by
  cases k with
  | zero => rfl
  | succ k => simp [impulseAt, List.getElem?_getD_replicate_default_eq]

theorem brev_zero (levels : Nat) : brev levels 0 = 0 := by
  induction levels with
  | zero => rfl
  | succ l ih => simp [brev, ih]

/-- Only index 0 has the reversed index 0. -/
theorem impulseAt_brev (x : Sample) {levels k : Nat} (hk : k < 2 ^ levels) :
    impulseAt x 0 (brev levels k) = impulseAt x 0 k := by
  have hzero : brev levels k = 0 ↔ k = 0 :=
    ⟨fun h => by rw [← brev_brev hk, h, brev_zero], fun h => by rw [h, brev_zero]⟩
  simp only [impulseAt, pow_zero, Nat.lt_one_iff, hzero]

/-- A stage doubles the copies: the second index of a pair has none, and takes over the first one's. -/
theorem impulseAt_butterfly {c : Cfg} (p : Policy) {x : Sample} (hx : c.sampleOk x = true) {t i : Nat} (w : Sample)
    (hfirst : i % (2 * 2 ^ t) < 2 ^ t) : bfly c p (impulseAt x t i) (impulseAt x t (i + 2 ^ t)) w =
      (impulseAt x (t + 1) i, impulseAt x (t + 1) (i + 2 ^ t)) := by
  have hsecond : impulseAt x t (i + 2 ^ t) = Sample.zero := if_neg (by omega)
  have hcopy : i < 2 * 2 ^ t ↔ i < 2 ^ t := ⟨fun h => by rwa [Nat.mod_eq_of_lt h] at hfirst, fun h => by omega⟩
  have hcopy' : i + 2 ^ t < 2 * 2 ^ t ↔ i < 2 ^ t := by omega
  have hok : c.sampleOk (impulseAt x t i) = true := by
    unfold impulseAt
    split_ifs
    exacts [hx, zero_ok c]
  rw [hsecond, bfly_zero p hok]
  simp only [impulseAt, pow_succ', hcopy, hcopy']

/-- Settles O41: every stage doubles the number of cells that hold the impulse's value. -/
theorem impulseGivesAFlatSpectrum : Obligations.ImpulseGivesAFlatSpectrum := by
  intro c p x hv hx
  have hn := Cfg.n_eq_two_pow_levels hv
  have hpos : 1 ≤ c.n := hn ▸ Nat.one_le_two_pow
  have hl : (x :: List.replicate (c.n - 1) Sample.zero).length = c.n := by simp; omega
  refine ext_getD Sample.zero ((length_forward c p _).trans (hl.trans (List.length_replicate).symm)) fun k hk => ?_
  rw [length_forward, hl] at hk
  have h := getD_forwardCells Sample.zero c.twAt (bfly c p) (hl.trans hn) (f := impulseAt x)
    (fun k hk => by rw [getD_impulse, impulseAt_brev x hk])
    (fun t i _ hfirst => impulseAt_butterfly p hx _ hfirst) (hn ▸ hk)
  rw [← hn] at h
  rw [forward, h, impulseAt, if_pos (hn ▸ hk), List.getD_replicate _ hk]

/-! ### The scaling constants (R262) -/

/-- `NFX` is the low bits of `2^(levels+F)`. -/
theorem Cfg.nfx_eq_trunc {c : Cfg} (hv : c.valid = true) :
    c.nfx = trunc c.w ((2 ^ (c.levels + c.fracBits) : Nat) : Int) := by
  have hn := Cfg.n_eq_two_pow_levels hv
  rw [Cfg.nfx, Cfg.fromInt, shl, ← Nat.cast_mul, pow_add, ← hn]

theorem Cfg.nfx_of_le {c : Cfg} (hv : c.valid = true) (h : c.levels + c.fracBits ≤ c.w - 2) :
    c.nfx = ((2 ^ (c.levels + c.fracBits) : Nat) : Int) := by
  have hlt : ((2 ^ (c.levels + c.fracBits) : Nat) : Int) < ((2 ^ (c.w - 1) : Nat) : Int) := by
    exact Int.ofNat_lt.mpr (Nat.pow_lt_pow_right (by decide) (by rcases c.w_cases with h | h | h | h <;> omega))
  have hpos := two_pow_pos (c.levels + c.fracBits)
  rw [Cfg.nfx_eq_trunc hv]
  exact trunc_eq_self c.w_pos (by omega) (by omega)

/-- The sign bit alone reads as `MIN`. -/
theorem Cfg.trunc_two_pow_w_pred (c : Cfg) : trunc c.w ((2 ^ (c.w - 1) : Nat) : Int) = c.min := by
  have hmod : ((2 ^ (c.w - 1) : Nat) : Int) % ((2 ^ c.w : Nat) : Int) = c.min % ((2 ^ c.w : Nat) : Int) := by
    rw [Cfg.min, ← Int.add_mul_emod_self_left (-((2 ^ (c.w - 1) : Nat) : Int)) _ 1, two_pow_pred c.w_pos]
    ring_nf
  have hmin : c.inRange c.min = true := (c.inRange_iff _).mpr ⟨le_rfl, (c.min_neg.trans_le c.max_nonneg).le⟩
  rw [trunc_congr hmod, c.trunc_self hmin]

theorem Cfg.nfx_of_eq {c : Cfg} (hv : c.valid = true) (h : c.levels + c.fracBits = c.w - 1) : c.nfx = c.min := by
  rw [Cfg.nfx_eq_trunc hv, h, c.trunc_two_pow_w_pred]

theorem Cfg.nfx_of_ge {c : Cfg} (hv : c.valid = true) (h : c.w ≤ c.levels + c.fracBits) : c.nfx = 0 := by
  have hn := Cfg.n_eq_two_pow_levels hv
  rw [Cfg.nfx, c.fromInt_eq_zero_iff, hn]
  push_cast
  rw [← pow_add]
  exact pow_dvd_pow 2 h

theorem Cfg.recip_eq {c : Cfg} (hv : c.valid = true) :
    c.recip = (((2 * 2 ^ c.fracBits + 2 ^ c.levels) / (2 * 2 ^ c.levels) : Nat) : Int) := by
  rw [Cfg.recip, rhaDiv, Cfg.one, Cfg.n_eq_two_pow_levels hv, Int.natAbs_natCast,
    Int.sign_eq_one_of_pos (two_pow_pos _), one_mul]

theorem Cfg.recip_of_le {c : Cfg} (hv : c.valid = true) (h : c.levels ≤ c.fracBits) :
    c.recip = ((2 ^ (c.fracBits - c.levels) : Nat) : Int) := by
  have hpos := Nat.two_pow_pos c.levels
  have hpow : 2 ^ c.fracBits = 2 ^ (c.fracBits - c.levels) * 2 ^ c.levels := by
    rw [← pow_add, Nat.sub_add_cancel h]
  rw [Cfg.recip_eq hv, hpow, mul_left_comm, mul_comm, Nat.mul_add_div (by omega),
    Nat.div_eq_of_lt (by omega), add_zero]

theorem Cfg.recip_of_eq {c : Cfg} (hv : c.valid = true) (h : c.levels = c.fracBits + 1) : c.recip = 1 := by
  have hpos := Nat.two_pow_pos c.levels
  rw [Cfg.recip_eq hv, ← pow_succ', ← h, ← two_mul, Nat.div_self (by omega), Nat.cast_one]

theorem Cfg.recip_of_ge {c : Cfg} (hv : c.valid = true) (h : c.fracBits + 2 ≤ c.levels) : c.recip = 0 := by
  have hlt : 2 * 2 ^ c.fracBits < 2 ^ c.levels := by
    rw [← pow_succ']
    exact Nat.pow_lt_pow_right (by decide) h
  rw [Cfg.recip_eq hv, Nat.div_eq_of_lt (by omega), Nat.cast_zero]

/-- Settles O46: `NFX` is the low `W` bits of one power of two, and `RECIP` the rounded quotient of two. -/
theorem scalingConstantsClosedForm : Obligations.ScalingConstantsClosedForm := by
  intro c hv
  refine ⟨fun h => ?_, Cfg.nfx_of_eq hv, Cfg.nfx_of_ge hv, fun h => ?_, Cfg.recip_of_eq hv, Cfg.recip_of_ge hv⟩
  · rw [Cfg.nfx_of_le hv h, Nat.cast_pow, Nat.cast_ofNat]
  · rw [Cfg.recip_of_le hv h, Nat.cast_pow, Nat.cast_ofNat]

/-! ### The scaling (R262) -/

/-- A quotient by a number that is not negative lies between 0 and the dividend. -/
theorem Cfg.tdiv_inRange {c : Cfg} {v b : Int} (hv : c.inRange v = true) (hb : 0 ≤ b) :
    c.inRange (tdiv v b) = true := by
  have habs := abs_tdiv_le v b
  have hmin := c.min_neg
  have hmax := c.max_nonneg
  rw [c.inRange_iff] at hv ⊢
  rcases le_total 0 v with h | h
  · have hquot := tdiv_nonneg (mul_nonneg h hb)
    rw [abs_of_nonneg h, abs_of_nonneg hquot] at habs
    omega
  · have hquot := tdiv_nonpos (mul_nonpos_of_nonpos_of_nonneg h hb)
    rw [abs_of_nonpos h, abs_of_nonpos hquot] at habs
    omega

/-- Settles O47: both quotients are those by `N`, the common factor `2^F` or `2^(F-levels)` cancelled, and a
quotient by `N ≥ 1` of a raw value is a raw value. -/
theorem scalingDividesByN : Obligations.ScalingDividesByN := by
  intro c p v hv hr
  have hn : (c.n : Int) = ((2 ^ c.levels : Nat) : Int) := congrArg _ (Cfg.n_eq_two_pow_levels hv)
  refine ⟨fun hs h => ?_, fun hs h => ?_⟩
  · have hquot : tdiv (shl v c.fracBits) c.nfx = tdiv v c.n := by
      rw [Cfg.nfx_of_le hv h, pow_add, Nat.cast_mul, tdiv_eq, shl, Int.mul_tdiv_mul_of_pos_left _ _ (two_pow_pos _), hn,
        tdiv_eq]
    simp only [scaleRaw, hs]
    rw [aluQuot, hquot, narrow_of_inRange c p (Cfg.tdiv_inRange hr (Int.natCast_nonneg _)), tdiv_eq]
  · have hquot : asr (v * c.recip) c.fracBits = asr v c.levels := by
      have hpow : 2 ^ c.fracBits = 2 ^ (c.fracBits - c.levels) * 2 ^ c.levels := by
        rw [← pow_add, Nat.sub_add_cancel h]
      rw [Cfg.recip_of_le hv h, asr, asr, hpow, Nat.cast_mul, mul_comm v, Int.mul_ediv_mul_of_pos _ _ (two_pow_pos _)]
    simp only [scaleRaw, hs]
    rw [aluMul, hquot, narrow_of_inRange c p (asr_inRange c _ hr), asr, hn,
      Int.fdiv_eq_ediv_of_nonneg _ (two_pow_pos _).le]

/-! ### One and two points (R253, R265) -/

theorem forward_one {c : Cfg} (hn : c.n = 1) (p : Policy) (x : Sample) : forward c p [x] = [x] := by
  have hlevels : c.levels = 0 := by rw [Cfg.levels, hn]; rfl
  rw [forward, hlevels, hn]
  rfl

/-- At two points the permutation moves nothing, and the one stage is the one butterfly. -/
theorem forward_two {c : Cfg} (hn : c.n = 2) (p : Policy) (x y : Sample) :
    forward c p [x, y] = [(bfly c p x y (c.twAt 0)).1, (bfly c p x y (c.twAt 0)).2] := by
  have hlevels : c.levels = 1 := by rw [Cfg.levels, hn]; rfl
  rw [forward, hlevels, hn]
  rfl

/-- Settles O44: the product with the one twiddle `1` is the second cell itself. -/
theorem forwardAtOneAndTwoPoints : Obligations.ForwardAtOneAndTwoPoints := by
  refine fun c p x y => ⟨fun hn => forward_one hn p x, fun hn _ htw hy => ?_⟩
  have hone : c.twAt 0 = ⟨c.one, 0⟩ := by rw [Cfg.twAt, htw]; rfl
  rw [forward_two hn, hone, bfly, cmul_one p hy]

/-- Two negations through the policy: off `MIN` they cancel; `MIN` saturates to `MAX` and then to `MIN + 1`, or
wraps to itself twice (R164). -/
theorem neg_neg_through_policy {c : Cfg} (p : Policy) {a : Int} (ha : c.inRange a = true) :
    aluSub c p 0 (aluSub c p 0 a) = if a = c.min ∧ p = .saturate then c.min + 1 else a := by
  have hmax := c.max_eq
  have hmax' := c.max_nonneg
  simp only [aluSub, zero_sub]
  by_cases hmin : a = c.min
  · have hover : c.max < -a := by omega
    rw [narrow_of_max_lt p hover]
    cases p with
    | saturate =>
      rw [if_pos rfl, if_pos ⟨hmin, rfl⟩, narrow_of_inRange c _ ((c.inRange_iff _).mpr (by omega))]
      omega
    | wrapAround =>
      rw [if_neg (by decide), ← hmin, narrow_of_max_lt _ hover, if_neg (by decide), if_neg (by simp), hmin]
  · rw [narrow_of_inRange c p (Cfg.neg_inRange ha hmin), neg_neg, narrow_of_inRange c p ha, if_neg (by simp [hmin])]

/-- At one point `inverse` conjugates twice and scales. -/
theorem inverse_one {c : Cfg} (hn : c.n = 1) (p : Policy) (x : Sample) :
    inverse c p [x] = [scale c p (conj c p (conj c p x))] := by
  rw [inverse, List.map_singleton, forward_one hn, List.map_singleton, List.map_singleton]

/-- With an integer bit beside the sign, `NFX` at one point is `ONE`, which divides nothing off. -/
theorem scaleRaw_div_of_le {c : Cfg} {v : Int} (hn : c.n = 1) (hs : c.invScale = .div) (hF : c.fracBits ≤ c.w - 2)
    (p : Policy) (hv : c.inRange v = true) : scaleRaw c p v = v := by
  have hnfx : c.nfx = c.one := by rw [Cfg.nfx, hn, Nat.cast_one, Cfg.fromInt_one hF]
  simp only [scaleRaw, hs]
  rw [hnfx, aluQuot, tdiv_shl_one, narrow_of_inRange c p hv]

/-- With no integer bit, `NFX` at one point is `MIN`, which reads as `-1`. -/
theorem scaleRaw_div_of_eq {c : Cfg} (hn : c.n = 1) (hv : c.valid = true) (hs : c.invScale = .div)
    (hF : c.fracBits = c.w - 1) (p : Policy) (v : Int) : scaleRaw c p v = narrow c p (-v) := by
  have hlevels : c.levels = 0 := by rw [Cfg.levels, hn]; rfl
  have hnfx : c.nfx = -c.one := by rw [Cfg.nfx_of_eq hv (by omega), Cfg.min, Cfg.one, hF]
  simp only [scaleRaw, hs]
  rw [hnfx, aluQuot, tdiv_eq, Int.tdiv_neg, ← tdiv_eq, tdiv_shl_one]

/-- Settles O45: the real part goes through the scaling alone, the imaginary part through two negations first. -/
theorem inverseAtOnePoint : Obligations.InverseAtOnePoint := by
  intro c p x hn hv hs hx im
  obtain ⟨hre, him⟩ := (c.sampleOk_iff x).mp hx
  have hneg : aluSub c p 0 (aluSub c p 0 x.im) = im := neg_neg_through_policy p him
  have hconj : conj c p (conj c p x) = ⟨x.re, im⟩ := congrArg _ hneg
  have him' : c.inRange im = true := hneg ▸ aluSub_inRange c p _ _
  rw [inverse_one hn, hconj, scale]
  refine ⟨fun hF => ?_, fun hF => ?_⟩
  · rw [scaleRaw_div_of_le hn hs hF p hre, scaleRaw_div_of_le hn hs hF p him']
  · rw [scaleRaw_div_of_eq hn hv hs hF, scaleRaw_div_of_eq hn hv hs hF]

/-! ### The commands (R253, R261) -/

namespace Machine

theorem lengthOk_of_ne {s : State} {len : Nat} (h : len ≠ s.cfg.n) : s.lengthOk len = false := decide_eq_false h

theorem lengthOk_self (s : State) : s.lengthOk s.cfg.n = true := decide_eq_true rfl

theorem exec_fftFwd_of_ne {s : State} {len : Nat} (p : Policy) (h : len ≠ s.cfg.n) :
    exec (.fftFwd p len) s = .next (s.raise .sizeMismatch) := by
  simp [exec, execFftFwd, lengthOk_of_ne h]

theorem exec_fftFwd_self (s : State) (p : Policy) :
    exec (.fftFwd p s.cfg.n) s = s.transform (forward s.cfg p) :=
  if_pos (lengthOk_self s)

theorem exec_fftInv_of_ne {s : State} {len : Nat} (p : Policy) (h : len ≠ s.cfg.n) :
    exec (.fftInv p len) s = .next (s.raise .sizeMismatch) := by
  simp [exec, execFftInv, lengthOk_of_ne h]

theorem exec_fftInv_of_zero {s : State} (p : Policy) (hs : s.cfg.invScale = .div) (hz : s.cfg.nfx = 0) :
    exec (.fftInv p s.cfg.n) s = .next (s.raise .divByZero) := by
  simp [exec, execFftInv, lengthOk_self, Cfg.inverseDividesByZero, hs, hz]

theorem exec_fftInv_self {s : State} (p : Policy) (h : s.cfg.invScale = .div → s.cfg.nfx ≠ 0) :
    exec (.fftInv p s.cfg.n) s = s.transform (inverse s.cfg p) := by
  simp [exec, execFftInv, lengthOk_self, Cfg.inverseDividesByZero_eq_false h]

/-- A command that is a transform of all cells, with every cell written. -/
theorem completes_of_transform {s : State} {i : Instr} {f : List Sample → List Sample}
    (h : exec i s = s.transform f) (hall : s.allWritten = true) :
    Completes i s (Memory.ofCells (f s.cells)) 0 0 :=
  ⟨_, h.trans (transform_next s f hall), answered_respond s _ s.cfg.zero_inRange s.cfg.zero_inRange⟩

/-- Settles O42: past its checks each command is its transform, and each check raises its error. -/
theorem transformCommandsComplete : Obligations.TransformCommandsComplete := by
  refine ⟨fun k hk => ⟨coded_of_imm rfl hk rfl, coded_of_imm rfl hk rfl, coded_of_imm rfl hk rfl,
    coded_of_imm rfl hk rfl⟩, fun p len s => ⟨?_, fun hlen => ?_, ?_, ?_⟩⟩
  · rintro rfl hall
    exact completes_of_transform (exec_fftFwd_self s p) hall
  · exact ⟨errs_of_raise (exec_fftFwd_of_ne p hlen), errs_of_raise (exec_fftInv_of_ne p hlen)⟩
  · rintro rfl hs hz
    exact errs_of_raise (exec_fftInv_of_zero p hs hz)
  · rintro rfl hz hall
    exact completes_of_transform (exec_fftInv_self p hz) hall

end Machine

end Sys2Proof

/-! PROOFS. Errors, and where the machine stops: the statements of 60_exceptions.md. -/

namespace Sys2Proof

namespace Machine

/-! ### Which command raises which error (R300, R311) -/

theorem mayRaise_divByZero {i : Instr} (h : MayRaise i .divByZero) :
    (∃ p, i = .div p) ∨ ∃ p k, i = .fftInv p k := by
  cases i with
  | div p => exact .inl ⟨p, rfl⟩
  | fftInv p k => exact .inr ⟨p, k, rfl⟩
  | _ => simp [MayRaise] at h

theorem mayRaise_sizeMismatch {i : Instr} (h : MayRaise i .sizeMismatch) :
    (∃ k, i = .bitrev k) ∨ (∃ p k, i = .fftFwd p k) ∨ ∃ p k, i = .fftInv p k := by
  cases i with
  | bitrev k => exact .inl ⟨k, rfl⟩
  | fftFwd p k => exact .inr (.inl ⟨p, k, rfl⟩)
  | fftInv p k => exact .inr (.inr ⟨p, k, rfl⟩)
  | _ => simp [MayRaise] at h

theorem mayRaise_badIndex {i : Instr} (h : MayRaise i .badIndex) :
    (∃ k, i = .rdtw k) ∨ (∃ k, i = .wrx k) ∨ ∃ k, i = .rdx k := by
  cases i with
  | rdtw k => exact .inl ⟨k, rfl⟩
  | wrx k => exact .inr (.inl ⟨k, rfl⟩)
  | rdx k => exact .inr (.inr ⟨k, rfl⟩)
  | _ => simp [MayRaise] at h

/-- No decoded command raises the error of an illegal word. -/
theorem not_mayRaise_illegalCommand (i : Instr) : ¬ MayRaise i .illegalCommand := by
  cases i <;> simp [MayRaise]

/-- A command that answers an error has raised it, and done nothing else (R306). -/
theorem exec_error {i : Instr} {s t : State} {r : Response} (h : exec i s = .next t) (hr : t.rsp = some r)
    (he : r.err ≠ .ok) : MayRaise i r.err ∧ t = s.raise r.err := by
  have ok {u : State} {a b : Int} (ht : t = u.respond a b) : r.err = .ok := by
    rw [ht, respond_rsp, Option.some.injEq] at hr
    rw [← hr]
  rcases exec_cases h with ⟨e, hmay, rfl⟩ | ⟨a, b, ht⟩ | ⟨k, -, -, ht⟩ | ⟨xs, ys, -, -, ht⟩
  · rw [raise_rsp, Option.some.injEq] at hr
    subst hr
    exact ⟨hmay, rfl⟩
  · exact absurd (ok ht) he
  · exact absurd (ok ht) he
  · exact absurd (ok ht) he

/-- Settles O49: an answer with an error is one that the command may raise. -/
theorem whoRaisesWhichError : Obligations.WhoRaisesWhichError := by
  intro i s t r h hr
  have may (he : r.err ≠ .ok) : MayRaise i r.err := (exec_error h hr he).1
  cases he : r.err with
  | ok => trivial
  | divByZero => exact mayRaise_divByZero (he ▸ may (by simp [he]))
  | sizeMismatch => exact mayRaise_sizeMismatch (he ▸ may (by simp [he]))
  | badIndex => exact mayRaise_badIndex (he ▸ may (by simp [he]))
  | invalidConfiguration => exact mayRaise_ne_invalidConfiguration (may (by simp [he])) he
  | illegalCommand => exact not_mayRaise_illegalCommand i (he ▸ may (by simp [he]))

/-- Settles O48: a command has raised its error; in a step that is so of the command or of an illegal word, and
then the next slot comes to the port. -/
theorem errorsChangeNothing : Obligations.ErrorsChangeNothing := by
  refine ⟨fun i s t r h hr he => (exec_error h hr he).2, fun s t r h hr he => ?_⟩
  have hstep : t = (s.raise r.err).advance := by
    rcases step_cases h with ⟨-, rfl | rfl⟩ | ⟨-, -, rfl⟩ | ⟨-, i, u, -, hu, rfl⟩
    · simp at hr
    · simp at hr
    · rw [advance_rsp, raise_rsp, Option.some.injEq] at hr
      rw [← hr]
    · rw [advance_rsp] at hr
      rw [(exec_error hu hr he).2]
  rw [hstep, advance_eq]
  rfl

/-! ### The division by zero (R301) -/

theorem raise_ne_respond (s u : State) {e : ErrCode} (he : e ≠ .ok) (a b : Int) : s.raise e ≠ u.respond a b := by
  intro h
  have hr := congrArg State.rsp h
  rw [raise_rsp, respond_rsp, Option.some.injEq, Response.mk.injEq] at hr
  exact he hr.1

theorem opB_eq_zero_of_raise {s : State} {p : Policy} (h : exec (.div p) s = .next (s.raise .divByZero)) :
    s.opB = 0 := by
  by_contra hb
  rw [exec_div_of_ne p hb, Host.Outcome.next.injEq] at h
  exact raise_ne_respond s s (by decide) _ _ h.symm

theorem fftInv_zero_of_raise {s : State} {p : Policy} {k : Nat}
    (h : exec (.fftInv p k) s = .next (s.raise .divByZero)) :
    k = s.cfg.n ∧ s.cfg.invScale = .div ∧ s.cfg.nfx = 0 := by
  have hk : k = s.cfg.n := by
    by_contra hk
    rw [exec_fftInv_of_ne p hk, Host.Outcome.next.injEq] at h
    simpa using congrArg State.rsp h
  refine ⟨hk, ?_⟩
  by_contra hz
  rw [hk, exec_fftInv_self p (not_and.mp hz)] at h
  obtain ⟨xs, -, ht⟩ := transform_cases h
  exact raise_ne_respond s _ (by decide) _ _ ht

/-- Settles O18: the two commands raise it on their zero divisor, and a command that answers it has raised it, so
it is one of the two and its divisor is 0. -/
theorem divisionByZeroIsReported : Obligations.DivisionByZeroIsReported := by
  refine fun s => ⟨fun p hb => errs_of_raise (exec_div_of_eq p hb),
    fun p hs hz => errs_of_raise (exec_fftInv_of_zero p hs hz), fun i t r h hr he => ?_⟩
  obtain ⟨hmay, rfl⟩ := exec_error h hr (by simp [he])
  rw [he] at hmay h
  rcases mayRaise_divByZero hmay with ⟨p, rfl⟩ | ⟨p, k, rfl⟩
  · exact .inl ⟨p, rfl, opB_eq_zero_of_raise h⟩
  · obtain ⟨rfl, hs, hz⟩ := fftInv_zero_of_raise h
    exact .inr ⟨p, rfl, hs, hz⟩

/-! ### Where the machine stops (R310, R25) -/

theorem step_of_slot {s u : State} (h : slot s = .next u) : step s = .next u.advance := by
  rw [step, h, thenAdvance]

/-- A slot stops only by the fault of an unwritten cell, and only when some cell is unwritten. -/
theorem slot_stops (s : State) :
    (∃ u, slot s = .next u) ∨ (slot s = .fault .unwrittenCell ∧ s.allWritten = false) := by
  cases ha : s.port.accepts with
  | false =>
    rcases slot_of_not_accepts ha with h | h
    · exact .inl ⟨_, h⟩
    · exact .inl ⟨_, h⟩
  | true =>
    rw [slot_of_accepts ha, runCommand]
    cases decode s.port.cmdWord with
    | error e => exact .inl ⟨_, rfl⟩
    | ok i => exact exec_stops

/-- Settles O51: a slot answers a next state, or the fault where some cell is unwritten. -/
theorem machineStopsOnUnwrittenCellsOnly : Obligations.MachineStopsOnUnwrittenCellsOnly := by
  intro s
  rcases slot_stops s with ⟨u, hu⟩ | ⟨hfault, hall⟩
  · have hstep := step_of_slot hu
    exact ⟨fun _ => ⟨_, hstep⟩, fun r hr => by simp [hstep] at hr⟩
  · refine ⟨fun hall' => absurd hall' (by simp [hall]), fun r hr => ?_⟩
    simp [step, hfault, thenAdvance] at hr

/-- Settles O8: the slot only takes the response away, and then the next slot comes to the port. -/
theorem idleSlotChangesNothing : Obligations.IdleSlotChangesNothing := by
  intro s hrst hvalid
  have hslot : slot s = .next s.idleSlot := by simp [slot, hrst, hvalid]
  exact ⟨_, step_of_slot hslot, advance_cfg _, advance_xmem _, advance_rsp _, advance_port _, advance_inputs _⟩

end Machine

end Sys2Proof

/-! PROOFS. Reset: the statement of 70_reset_and_hazards.md. -/

namespace Sys2Proof

namespace Machine

/-- A reset at the edge, or while the accepted command runs, is the reset and nothing else (R31). -/
theorem slot_of_reset {s : State} (h : s.port.rst = true ∨ s.port.cmdValid = true ∧ s.port.rstBeforeRsp = true) :
    slot s = .next s.applyReset := by
  rcases h with h | ⟨hvalid, hcut⟩
  · simp [slot, h]
  · simp [slot, hvalid, hcut]

/-- Settles O9: the reset lists no cell and holds no response, and then the next slot comes to the port. -/
theorem resetEmptiesTheSampleMemory : Obligations.ResetEmptiesTheSampleMemory := by
  intro s h
  have hxmem : s.applyReset.advance.xmem = [] := advance_xmem _
  exact ⟨_, step_of_slot (slot_of_reset h), advance_cfg _, fun i => hxmem ▸ read_nil i, advance_rsp _, advance_port _,
    advance_inputs _⟩

end Machine

end Sys2Proof
